-- ==== Sys2Proof/Word.lean ====
section
/-! DEFINITION. The value types of the APDEC core (spec/00_scope.md R14): unsigned bytes (`u8`), unsigned 32-bit values
(`u32`), and the 16-bit command word of R55. All values are unsigned; the core has no signed arithmetic. -/

namespace Sys2Proof

/-- `u8` of R14. -/
abbrev Byte := BitVec 8

/-- `u32` of R14: what every register of the map shows on the register read port (R21). -/
abbrev Word := BitVec 32

/-- One command on the command port (R55): one 16-bit word, no other length. -/
abbrev CmdWord := BitVec 16

end Sys2Proof
end

