-- ==== Sys2Proof/Syntax.lean ====
section
/-! DEFINITION. The commands of the core (spec/30_encoding.md R58, R61). The seven rows RESERVED of spec/opcode_table.json cut one range of
opcodes, 0x05 to 0xFF, into mask and match pairs; R61 gives them one command, RESERVED(op), and so does `Instr`. -/

namespace Sys2Proof

/-- R61: every word is exactly one of NOP, START, PUSH(b), END, ABORT or RESERVED(op). The ignored DATA byte of the commands
without an operand (R57) is no part of the command. -/
inductive Instr where
  /-- NOP, OP 0x00 (R88). -/
  | nop
  /-- START, OP 0x01 (R89). -/
  | start
  /-- PUSH b, OP 0x02, `b` the DATA byte (R90). -/
  | push (b : Byte)
  /-- END, OP 0x03 (R91). -/
  | endCmd
  /-- ABORT, OP 0x04 (R92). -/
  | abort
  /-- RESERVED, any other opcode `op`, 0x05 to 0xFF (R59, R93). -/
  | reserved (op : Byte)
  deriving DecidableEq, Repr

/-- The mnemonic column of the opcode map (R58). -/
inductive Mnemonic where
  | NOP | START | PUSH | END | ABORT | RESERVED
  deriving DecidableEq, Repr

/-- The mnemonic a command stands under in R58. -/
def Instr.mnemonic : Instr → Mnemonic
  | .nop => .NOP
  | .start => .START
  | .push _ => .PUSH
  | .endCmd => .END
  | .abort => .ABORT
  | .reserved _ => .RESERVED

end Sys2Proof
end

