-- ==== Sys2Proof/WellFormed.lean ====
section
/-! DEFINITION. Which commands have an encoding. Every byte is an operand of PUSH (R57); RESERVED holds an opcode of the reserved range only
(R59: 0x05 to 0xFF). -/

namespace Sys2Proof

/-- A command some 16-bit word stands for. -/
def Instr.wellFormed : Instr → Bool
  | .nop => true
  | .start => true
  | .push _ => true
  | .endCmd => true
  | .abort => true
  | .reserved op => decide (0x05 ≤ op.toNat)

end Sys2Proof
end

