-- ==== Sys2Proof/Decode.lean ====
section
/-! DEFINITION. The one format CMD (spec/30_encoding.md R56), the decoder (R61), the encoder, and the opcode map as rows (R58). Decoding is
total: no word is rejected, since R61 gives each of the 65536 words a command. -/

namespace Sys2Proof

/-- R56: OP, bits [15:8]. -/
def opField (w : CmdWord) : Byte := w.extractLsb' 8 8

/-- R56, R57: DATA, bits [7:0], an unsigned byte with no extension. -/
def dataField (w : CmdWord) : Byte := w.extractLsb' 0 8

/-- R61: decoding by OP alone, in every phase the same (R62). -/
def decode (w : CmdWord) : Instr :=
  match (opField w).toNat with
  | 0x00 => .nop
  | 0x01 => .start
  | 0x02 => .push (dataField w)
  | 0x03 => .endCmd
  | 0x04 => .abort
  | _ => .reserved (opField w)

/-- R56: the word with the given OP and DATA, `{OP, DATA}`. -/
def cmdWord (op data : Byte) : CmdWord := op ++ data

/-- The word of a command, DATA 0x00 where the command ignores it (R57: "the assembler writes 0x00"). -/
def encode : Instr → CmdWord
  | .nop => cmdWord 0x00 0x00
  | .start => cmdWord 0x01 0x00
  | .push b => cmdWord 0x02 b
  | .endCmd => cmdWord 0x03 0x00
  | .abort => cmdWord 0x04 0x00
  | .reserved op => cmdWord op 0x00

/-- One row of the opcode table: a word `w` selects the row where `(w & mask) == match` (R58). -/
structure OpcodeRow where
  mnemonic : Mnemonic
  pattern  : CmdWord
  mask     : CmdWord
  deriving DecidableEq, Repr

/-- R58: `(w & mask) == match`. -/
def OpcodeRow.selects (r : OpcodeRow) (w : CmdWord) : Bool := (w &&& r.mask) == r.pattern

/-- The rows of spec/opcode_table.json, in its order: R58 with its last row cut into masks. -/
def opcodeTable : List OpcodeRow := [
  ⟨.NOP, 0x0000, 0xFF00⟩,
  ⟨.START, 0x0100, 0xFF00⟩,
  ⟨.PUSH, 0x0200, 0xFF00⟩,
  ⟨.END, 0x0300, 0xFF00⟩,
  ⟨.ABORT, 0x0400, 0xFF00⟩,
  ⟨.RESERVED, 0x0500, 0xFF00⟩,
  ⟨.RESERVED, 0x0600, 0xFE00⟩,
  ⟨.RESERVED, 0x0800, 0xF800⟩,
  ⟨.RESERVED, 0x1000, 0xF000⟩,
  ⟨.RESERVED, 0x2000, 0xE000⟩,
  ⟨.RESERVED, 0x4000, 0xC000⟩,
  ⟨.RESERVED, 0x8000, 0x8000⟩]

/-- The command word whose low `nbits` bits are those of `w` and whose other bits are 0, bit 0 the table's bit 0. -/
def tableWord (nbits w : Nat) : CmdWord := BitVec.ofNat 16 (w % 2 ^ nbits)

/-- What the decoder reads from a table row's word; a command has no length but 16 bits (R55), so a longer one is none. -/
def decodeTableWord (nbits w : Nat) : Option Instr :=
  if nbits ≤ 16 then some (decode (tableWord nbits w)) else none

end Sys2Proof
end

