-- ==== Sys2Proof/Machine/Memory.lean ====
section
/-! DEFINITION. The two byte arrays of the core, the key space (spec/20_memory.md R40) and the output space (R42), as one kind of byte memory:
a list of (address, byte) pairs with addresses strictly rising. An address that is not listed holds NO byte (`unlisted`): the
key space has addresses `0 .. L-1` only, the output space `0 .. OUT_LEN-1` only. Since an unlisted address reads as no byte,
no entry can equal it, and rising addresses alone are the canonical form. -/

namespace Sys2Proof.Machine

/-- A byte memory: (address, byte) pairs. -/
abbrev Memory := List Host.Cell

/-- What an address with no entry reads as: no byte at all (R40, R42). -/
def Memory.unlisted : Option Byte := none

/-- The canonical form: addresses strictly rising. -/
abbrev Memory.wf (m : Memory) : Prop := (m.map (·.1)).Pairwise (· < ·)

/-- The byte at an address. -/
def Memory.read : Memory → Nat → Option Byte
  | [], _ => Memory.unlisted
  | (a', b) :: t, a => if a' = a then some b else Memory.read t a

/-- Store one byte, keeping the addresses rising. -/
def Memory.write : Memory → Nat → Byte → Memory
  | [], a, b => [(a, b)]
  | (a', b') :: t, a, b =>
    if a < a' then (a, b) :: (a', b') :: t
    else if a = a' then (a, b) :: t
    else (a', b') :: Memory.write t a b

/-- A byte sequence placed at the addresses `base, base + 1, ..`. -/
def Memory.place : Nat → List Byte → Memory
  | _, [] => []
  | base, b :: t => (base, b) :: Memory.place (base + 1) t

/-- The memory that holds the sequence `bs` at addresses `0 .. len(bs) - 1` (R40, R42). -/
def Memory.ofBytes (bs : List Byte) : Memory := Memory.place 0 bs

/-- The bytes of a memory in the order of their addresses. -/
def Memory.bytes (m : Memory) : List Byte := m.map (·.2)

/-- The memory is a sequence: its addresses are exactly `0 .. n-1`. -/
def Memory.dense (m : Memory) : Prop := m = Memory.ofBytes m.bytes

end Sys2Proof.Machine
end

