-- ==== Sys2Proof/Machine/Cipher.lean ====
section
/-! DEFINITION. CipherKeystream (spec/41_cipher_keystream.md): bit reversal, the transform, its inverse and the cursor trajectory. Pure
functions of a key memory; no state is read or written here. -/

namespace Sys2Proof.Machine

/-- R66: `rev8(b)[i] = b[7 - i]`. In `++` the left part has the high bits, so bit 0 of `b` becomes bit 7. -/
def rev8 (b : Byte) : Byte :=
  b.extractLsb' 0 1 ++ b.extractLsb' 1 1 ++ b.extractLsb' 2 1 ++ b.extractLsb' 3 1 ++
    b.extractLsb' 4 1 ++ b.extractLsb' 5 1 ++ b.extractLsb' 6 1 ++ b.extractLsb' 7 1

/-- R17, R40: `KeyRead(i)`, the only read of the key ROM; no byte outside `0 .. L-1`. -/
def keyRead (key : Memory) (i : Nat) : Option Byte :=
  if i < key.length then key.read i else none

/-- R71: the cursor one position on, wrapping modulo `L`. -/
def nextCursor (len c : Nat) : Nat := (c + 1) % len

/-- R68, R69: XOR with the key byte first, then the reversal; no result outside the domain `0 <= c < L` (R70). -/
def transform (key : Memory) (b : Byte) (c : Nat) : Option (Byte × Nat) :=
  match keyRead key c with
  | some k => some (rev8 (b ^^^ k), nextCursor key.length c)
  | none => none

/-- R72: the encoder `encrypt(p, c) = rev8(p) xor KEY[c]`, which is no part of the core. -/
def encrypt (key : Memory) (p : Byte) (c : Nat) : Option Byte :=
  match keyRead key c with
  | some k => some (rev8 p ^^^ k)
  | none => none

/-- R73: `transform` applied to a payload in order, each `next` fed to the following byte; the outputs and the last cursor. -/
def transformRun (key : Memory) : List Byte → Nat → Option (List Byte × Nat)
  | [], c => some ([], c)
  | b :: t, c =>
    match transform key b c with
    | some (out, next) =>
      match transformRun key t next with
      | some (outs, last) => some (out :: outs, last)
      | none => none
    | none => none

/-- R73: `O[i] = rev8(P[i] xor KEY[(c0 + i) mod L])`, the closed form, over the bytes of the key table. -/
def transformSeq (key : List Byte) (payload : List Byte) (c0 : Nat) : List Byte :=
  payload.mapIdx fun i b => rev8 (b ^^^ key.getD ((c0 + i) % key.length) 0)

end Sys2Proof.Machine
end

