-- ==== Sys2Proof/Config.lean ====
section
/-! DEFINITION. The implementation parameters of spec/00_scope.md section 4 (R8 to R12): values the spec leaves open for whoever
builds the core. Each is an OPAQUE constant with no body, so a proof knows nothing of it beyond the bounds its type states.
The parameters an instance reads at run time are copied by `State.reset` into fields of State that no step writes, so that a
statement about every state is a statement about every choice of them (log entries 1, 2 and 3). -/

namespace Sys2Proof

/-- R10, R77: a rolling-checksum primitive, three total deterministic functions and nothing else assumed. Its state type `RC.S` is
coded in Nat (log entry 2). -/
structure Rc where
  /-- `RC.init`, the source's "identity/empty state". -/
  init   : Nat
  /-- `RC.update`, one byte at a time. -/
  update : Nat → Byte → Nat
  /-- `RC.digest`, a 32-bit digest at any point. -/
  digest : Nat → Word
  deriving Inhabited

/-- `L - 1` for the key table length `L` of R8: `Fin (2^32 - 1)` says exactly `1 <= L <= 2^32 - 1` and no more. -/
opaque Config.keyLenPred : Fin (4294967294 + 1)

/-- R8: the key table length `L` in bytes. -/
def Config.keyLen : Nat := Config.keyLenPred.val + 1

/-- R9: the key table's contents, `KEY[i]` for `0 <= i < L` (only those are ever used). -/
opaque Config.keyByte : Nat → Byte

/-- R11: the output buffer capacity `OUT_CAP`; a 32-bit value says exactly `0 <= OUT_CAP <= 2^32 - 1`. -/
opaque Config.outCap : Word

/-- R10: the rolling-checksum primitive of the source, whose algorithm no source names (spec/91_not_in_source.md N3). -/
opaque Config.rc : Rc

/-- `N_INST - 1` for the number of instances of R12. -/
opaque Config.nInstPred : Nat

/-- R12: the number of core instances built against one key ROM, at least 1. -/
def Config.nInst : Nat := Config.nInstPred + 1

end Sys2Proof
end

