-- ==== Sys2Proof/Machine/Checksum.lean ====
section
/-! DEFINITION. The rolling-checksum parameter as a machine sees it (spec/42_rolling_checksum.md R77, R78) and the test instantiation RC_ADLER32
(R85), which the spec's digest-dependent vectors use and no normative rule does. -/

namespace Sys2Proof.Machine

/-- Which primitive an instance is built with. State holds this name, never a function. -/
inductive RcId where
  /-- The source's own primitive, of which nothing is known (R77): `Config.rc`. -/
  | source
  /-- The test instantiation RC_ADLER32 of R85. -/
  | adler32
  deriving DecidableEq, Repr

/-- R85: the modulus of Adler-32. -/
def adlerMod : Nat := 65521

/-- R85: the pair `(a, b)` of the Adler-32 state, coded as `b * 65536 + a`. -/
def adlerCode (a b : Nat) : Nat := b * 65536 + a

/-- R85: `update((a, b), x) = (a', (b + a') mod 65521)` with `a' = (a + x) mod 65521`. -/
def adlerUpdate (ck : Nat) (x : Byte) : Nat :=
  let a := ck % 65536
  let b := ck / 65536
  let a' := (a + x.toNat) % adlerMod
  adlerCode a' ((b + a') % adlerMod)

/-- R85: `digest((a, b)) = b * 65536 + a`, that is `{b[15:0], a[15:0]}`. -/
def adlerDigest (ck : Nat) : Word := BitVec.ofNat 32 ck

/-- R85: RC_ADLER32, with initial state `(1, 0)`. -/
def rcAdler32 : Rc := { init := adlerCode 1 0, update := adlerUpdate, digest := adlerDigest }

/-- The primitive behind a name. -/
def RcId.prim : RcId → Rc
  | .source => Config.rc
  | .adler32 => rcAdler32

/-- R78: `fold(RC.update, s0, bytes)`. -/
def rcFold (rc : Rc) (s0 : Nat) (bytes : List Byte) : Nat := bytes.foldl rc.update s0

/-- R78: `D(bytes)`, the digest of a byte sequence. -/
def rcDigestOf (rc : Rc) (bytes : List Byte) : Word := rc.digest (rcFold rc rc.init bytes)

end Sys2Proof.Machine
end

