-- ==== Sys2Proof/Machine/State.lean ====
section
/-! DEFINITION. The architectural state of one core (spec/10_state.md R20), its value after reset (R38, R120), and the reasons a step can
stop. -/

namespace Sys2Proof.Machine

/-- STATUS.PHASE (R22). The values 5 to 7 are never produced and have no constructor (log entry 5). -/
inductive Phase where
  /-- 0: no job; after reset. -/
  | idle
  /-- 1: a job is open and fewer than 4 header bytes have been received. -/
  | header
  /-- 2: payload bytes are being transformed. -/
  | body
  /-- 3: the verify gate matched; the output buffer is released. -/
  | doneOk
  /-- 4: the job ended with an error; the output buffer is discarded. -/
  | doneErr
  deriving DecidableEq, Repr

/-- STATUS.ERR (R23, R106). The values 7 to 15 are never produced and have no constructor (log entry 5). -/
inductive ErrKind where
  /-- 0: no error. -/
  | none
  /-- 1: R107. -/
  | truncatedHeader
  /-- 2: R108. -/
  | checksumMismatch
  /-- 3: R109. -/
  | ioFailure
  /-- 4: R112, reserved for the host; the core never writes it. -/
  | unrecognizedExtension
  /-- 5: R110. -/
  | protocolError
  /-- 6: R111. -/
  | capacityExceeded
  deriving DecidableEq, Repr

/-- One presentation on the input ports `rst` and `cmd_valid`, `cmd_word[15:0]` (R97). -/
structure PortInput where
  rst      : Bool
  cmdValid : Bool
  cmdWord  : CmdWord
  deriving DecidableEq, Repr

/-- What stops the machine. No state that meets the invariant of R39 raises the first four (they are the stops the spec asks of
a model that meets a value it says is never produced). -/
inductive Fault where
  /-- A transform at a key index that is not in `0 .. L-1`: raised by PUSH in BODY. R41: "a model that meets an out-of-range key
  index faults". Safe. -/
  | keyIndexOutOfRange
  /-- A key table length outside R8's bounds: raised by the PUSH that completes the header, which divides by `L`. Safe. -/
  | keyLenOutOfRange
  /-- PUSH in HEADER with HDR_CNT not in 0 to 3: R27 and spec/93_implementation_defined.md I12 ("a model that meets one has a bug, so
  `fault`"). Safe. -/
  | headerCountOutOfRange
  /-- `OutAppend` where its precondition `OUT_LEN < OUT_CAP` fails (R43): raised by PUSH in BODY. Safe. -/
  | outAppendPrecondition
  /-- A step of an instance that a system does not have: raised by `System.stepAt` only, never by `step` or `exec`. Safe. -/
  | noSuchInstance
  deriving DecidableEq, Repr

/-- What has no meaning in the model. -/
inductive Refusal where
  /-- An instruction whose arm of `exec` has no meaning yet. No arm of this model answers it. Safe. -/
  | notModelled (mnemonic : String)
  deriving DecidableEq, Repr

/-- The state of one core. -/
structure State where
  /-- STATUS.PHASE, bits [2:0] of register 0x0 (R22). -/
  phase    : Phase
  /-- STATUS.ERR, bits [7:4] of register 0x0 (R23). -/
  err      : ErrKind
  /-- EXPECTED, register 0x1 (R26). -/
  expected : Word
  /-- HDR_CNT, bits [2:0] of register 0x2 (R27). -/
  hdrCnt   : BitVec 3
  /-- CURSOR, register 0x3 (R28). -/
  cursor   : Word
  /-- CK, the hidden checksum state (R29), a value of `RC.S` coded in Nat (log entry 2). -/
  ck       : Nat
  /-- ACTUAL, register 0x5 (R30). -/
  actual   : Word
  /-- OUT_LEN, register 0x6 (R31). -/
  outLen   : Word
  /-- OUTBUF, the output buffer (R35), the output space of R42. -/
  outBuf   : Memory
  /-- The key ROM (R34), the key space of R40; its length is `L`, which KEY_LEN reads (R32). No step writes it. -/
  keyRom   : Memory
  /-- The parameter `OUT_CAP` of this instance (R11). No step writes it. -/
  outCap   : Word
  /-- Which `RC` this instance is built with (R10). No step writes it. -/
  rc       : RcId
  /-- The model's own: what the host presents on the input ports, one entry a step, the next first (R97, log entry 4). -/
  host     : List PortInput
  deriving DecidableEq, Repr

/-- R38, R120: the state right after reset. The key ROM and the parameters are those the core is built with (R123); the host has
presented nothing yet. -/
def State.reset : State where
  phase    := .idle
  err      := .none
  expected := 0
  hdrCnt   := 0
  cursor   := 0
  ck       := (RcId.prim .source).init
  actual   := 0
  outLen   := 0
  outBuf   := []
  keyRom   := Memory.ofBytes ((List.range Config.keyLen).map Config.keyByte)
  outCap   := Config.outCap
  rc       := .source
  host     := []

end Sys2Proof.Machine
end

