-- ==== Sys2Proof/Machine/Flags.lean ====
section
/-! DEFINITION. The core's only flags, the fields of STATUS (spec/10_state.md R22 to R25, R36): their codes and the word they make up. -/

namespace Sys2Proof.Machine

/-- R22: the number of a phase. -/
def Phase.code : Phase → BitVec 3
  | .idle => 0
  | .header => 1
  | .body => 2
  | .doneOk => 3
  | .doneErr => 4

/-- R106: `code(E)`, the number of an error kind. -/
def ErrKind.code : ErrKind → BitVec 4
  | .none => 0
  | .truncatedHeader => 1
  | .checksumMismatch => 2
  | .ioFailure => 3
  | .unrecognizedExtension => 4
  | .protocolError => 5
  | .capacityExceeded => 6

/-- R24: OUT_VALID, a read-only image of PHASE. -/
def State.outValid (s : State) : Bool := s.phase == .doneOk

/-- R22 to R25: STATUS, `{0[31:9], OUT_VALID, ERR, 0, PHASE}`. -/
def State.statusWord (s : State) : Word :=
  (0 : BitVec 23) ++ BitVec.ofBool s.outValid ++ s.err.code ++ (0 : BitVec 1) ++ s.phase.code

end Sys2Proof.Machine
end

