-- ==== Sys2Proof/Machine/Operands.lean ====
section
/-! DEFINITION. What the core makes of the one operand form, the DATA byte of PUSH (spec/30_encoding.md R57): a byte of the little-endian header
(spec/20_memory.md R46), and the start cursor the finished header gives. -/

namespace Sys2Proof.Machine

/-- R26, R90: `e` with bits `[8k+7 : 8k]` replaced by `b`. -/
def setHeaderByte (e : Word) (k : Nat) (b : Byte) : Word :=
  (e &&& ~~~((0xFF : Word) <<< (8 * k))) ||| (b.setWidth 32 <<< (8 * k))

/-- R90: the start cursor `e mod L`, where `L` is in R8's bounds `1 <= L <= 2^32 - 1`. -/
def startCursor (len : Nat) (e : Word) : Option Word :=
  if 1 ≤ len ∧ len ≤ 4294967295 then some (BitVec.ofNat 32 (e.toNat % len)) else none

end Sys2Proof.Machine
end

