-- ==== Sys2Proof/Machine/Ops.lean ====
section
/-! DEFINITION. The shared operations on the state: error entry and the way out of it, the output primitives, the steps of the stream
protocol, and what the input ports select. Every meaning is put together from these. All reads in an operation see the state
it is given (spec/00_scope.md R16). -/

namespace Sys2Proof.Machine

/-- What one step answers. -/
abbrev Result := Host.Outcome State Fault Refusal

/-- The primitive this instance is built with (R10). -/
def State.prim (s : State) : Rc := s.rc.prim

/-- R8, R32: `L`, the length of the key table. -/
def State.keyLen (s : State) : Nat := s.keyRom.length

/-- R29: `RC.digest(CK)` at this moment, the DIGEST view. -/
def State.digest (s : State) : Word := s.prim.digest s.ck

/-! ## Reset and the start of a job -/

/-- R38: both columns of the reset table, which differ only in PHASE (R122). The key ROM, the parameters and what the host still
presents are not state that a reset or a START changes. -/
def State.fresh (ph : Phase) (s : State) : State :=
  { s with
    phase := ph, err := .none, expected := 0, hdrCnt := 0, cursor := 0, ck := s.prim.init, actual := 0, outLen := 0,
    outBuf := [] }

/-- R120, R121: `rst` asserted between commands, in any phase. -/
def State.applyReset (s : State) : State := s.fresh .idle

/-! ## Error entry (R113) and the way out of it (R115) -/

/-- R17: `OutClear()`. -/
def State.outClear (s : State) : State := { s with outBuf := [], outLen := 0 }

/-- R113: `raise E()`, the core's error entry: ERR and PHASE are written and the output is discarded; nothing else changes. -/
def State.raise (e : ErrKind) (s : State) : State := { s with err := e, phase := .doneErr }.outClear

/-- R115: the only command that leaves DONE_ERR opens a fresh job (R89). -/
def State.openJob (s : State) : State := s.fresh .header

/-- R87: `protocol_error()`; the first error of a job is kept. -/
def protocolError (s : State) : Result :=
  match s.phase with
  | .doneErr => .next s
  | .idle => .next (s.raise .protocolError)
  | .header => .next (s.raise .protocolError)
  | .body => .next (s.raise .protocolError)
  | .doneOk => .next (s.raise .protocolError)

/-! ## The header phase (R90, protocol steps 1 to 3) -/

/-- R26, R27: take one header byte into EXPECTED and count it. -/
def State.recordHeaderByte (b : Byte) (s : State) : State :=
  { s with expected := setHeaderByte s.expected s.hdrCnt.toNat b, hdrCnt := s.hdrCnt + 1 }

/-- R28, R79: the header is complete; the start cursor is set, the checksum initialised and the payload begins. -/
def State.beginBody (c : Word) (s : State) : State := { s with cursor := c, ck := s.prim.init, phase := .body }

/-- R90 in HEADER. HDR_CNT is 0, 1, 2 or 3 there (R39). -/
def pushHeader (b : Byte) (s : State) : Result :=
  if 4 ≤ s.hdrCnt.toNat then .fault .headerCountOutOfRange
  else if s.hdrCnt.toNat = 3 then
    match startCursor s.keyLen (s.recordHeaderByte b).expected with
    | some c => .next ((s.recordHeaderByte b).beginBody c)
    | none => .fault .keyLenOutOfRange
  else .next (s.recordHeaderByte b)

/-! ## The body phase (R90, protocol step 4) -/

/-- R42: the address `OutAppend` stores to. -/
def State.outAppendAddr (s : State) : Nat := s.outLen.toNat

/-- R43: the effect of `OutAppend(b)`: the byte is stored at address OUT_LEN and OUT_LEN counts it. -/
def State.appendByte (b : Byte) (s : State) : State :=
  { s with outBuf := s.outBuf.write s.outAppendAddr b, outLen := s.outLen + 1 }

/-- R43: `OutAppend(b)`, under its precondition `OUT_LEN < OUT_CAP`. -/
def State.outAppend (b : Byte) (s : State) : Option State :=
  if s.outLen < s.outCap then some (s.appendByte b) else none

/-- R68, R80: the cursor moves on and the output byte is digested. -/
def State.advance (out : Byte) (next : Nat) (s : State) : State :=
  { s with cursor := BitVec.ofNat 32 next, ck := s.prim.update s.ck out }

/-- R90 in BODY: the capacity check comes before the transform (R111, R114). -/
def pushBody (b : Byte) (s : State) : Result :=
  if s.outLen = s.outCap then .next (s.raise .capacityExceeded)
  else
    match transform s.keyRom b s.cursor.toNat with
    | none => .fault .keyIndexOutOfRange
    | some (out, next) =>
      match s.outAppend out with
      | none => .fault .outAppendPrecondition
      | some s' => .next (s'.advance out next)

/-! ## The verify gate (R82) -/

/-- R30: ACTUAL takes the digest, whether it matches or not. -/
def State.captureDigest (s : State) : State := { s with actual := s.digest }

/-- R82: the output is released. -/
def State.release (s : State) : State := { s with phase := .doneOk }

/-- R82: 32-bit equality of the digest with EXPECTED decides. -/
def verifyGate (s : State) : Result :=
  if s.digest = s.expected then .next s.captureDigest.release
  else .next (s.captureDigest.raise .checksumMismatch)

/-! ## The input ports (R97) -/

/-- What one presentation on the input ports asks of the core. -/
inductive PortEvent where
  /-- Neither `rst` nor `cmd_valid`: the core holds its state (R119). -/
  | hold
  /-- `rst` (R120). -/
  | reset
  /-- `cmd_valid` with this word (R97). -/
  | command (w : CmdWord)
  deriving DecidableEq, Repr

/-- R97, R114, R121: reset takes priority over any command presented with it. -/
def PortInput.event (p : PortInput) : PortEvent :=
  match p.rst, p.cmdValid with
  | true, _ => .reset
  | false, true => .command p.cmdWord
  | false, false => .hold

/-- A presentation of one command word (R97). -/
def PortInput.ofCommand (w : CmdWord) : PortInput := { rst := false, cmdValid := true, cmdWord := w }

/-- The same state with other inputs to come. -/
def State.withHost (inputs : List PortInput) (s : State) : State := { s with host := inputs }

/-- The next event and the state once the host has presented it; with nothing to come the host is silent (R119, R127). -/
def State.nextEvent (s : State) : PortEvent × State :=
  match s.host with
  | [] => (.hold, s)
  | p :: rest => (p.event, s.withHost rest)

end Sys2Proof.Machine
end

