-- ==== Sys2Proof/Machine/Stream.lean ====
section
/-! DEFINITION. The StreamDecoder commands (spec/43_stream_decoder.md R88 to R93), one definition each, by the phase they meet. -/

namespace Sys2Proof.Machine

/-- R88: no change, in every phase. -/
def execNop (s : State) : Result := .next s

/-- R89: a fresh job, in every phase. -/
def execStart (s : State) : Result := .next s.openJob

/-- R90: the next byte of the container. -/
def execPush (b : Byte) (s : State) : Result :=
  match s.phase with
  | .header => pushHeader b s
  | .body => pushBody b s
  | .idle => protocolError s
  | .doneOk => protocolError s
  | .doneErr => .next s

/-- R91: the source is exhausted. -/
def execEnd (s : State) : Result :=
  match s.phase with
  | .header => .next (s.raise .truncatedHeader)
  | .body => verifyGate s
  | .idle => protocolError s
  | .doneOk => protocolError s
  | .doneErr => .next s

/-- R92: the host's read, open or write failed. -/
def execAbort (s : State) : Result :=
  match s.phase with
  | .header => .next (s.raise .ioFailure)
  | .body => .next (s.raise .ioFailure)
  | .doneOk => .next (s.raise .ioFailure)
  | .idle => protocolError s
  | .doneErr => .next s

/-- R93: a reserved opcode; which one makes no difference. -/
def execReserved (_op : Byte) (s : State) : Result := protocolError s

end Sys2Proof.Machine
end

