-- ==== Sys2Proof/Machine/Dispatch.lean ====
section
/-! DEFINITION. One arm per command (spec/43_stream_decoder.md R86): the decoded command's own rule. -/

namespace Sys2Proof.Machine

def exec (i : Instr) (s : State) : Host.Outcome State Fault Refusal :=
  match i with
  | .nop => Sys2Proof.Machine.execNop s
  | .start => Sys2Proof.Machine.execStart s
  | .push b => Sys2Proof.Machine.execPush b s
  | .endCmd => Sys2Proof.Machine.execEnd s
  | .abort => Sys2Proof.Machine.execAbort s
  | .reserved op => Sys2Proof.Machine.execReserved op s

end Sys2Proof.Machine
end

