-- ==== Sys2Proof/Machine/Step.lean ====
section
/-! DEFINITION. One step of the core: one command, one reset, or one moment in which the host presents nothing (spec/44_host_ports.md R97). -/

namespace Sys2Proof.Machine

/-- R86, R97, R121: take the next presentation on the input ports and do what it asks. -/
def step (s : State) : Host.Outcome State Fault Refusal :=
  match s.nextEvent with
  | (.hold, t) => .next t
  | (.reset, t) => .next t.applyReset
  | (.command w, t) => exec (decode w) t

/-- The host presents the table word `w` next, before whatever it was to present: the command port is where the core takes its
commands from, and a program is what the host presents (log entry 4). -/
def State.withFetchWord (s : State) (nbits w : Nat) : State :=
  s.withHost (PortInput.ofCommand (tableWord nbits w) :: s.host)

end Sys2Proof.Machine
end

