-- ==== Sys2Proof/Machine/Assembler.lean ====
section
/-! DEFINITION. The assembler's notation (spec/30_encoding.md R63, R64): pseudo-commands, the text of a command, and what the host presents when it
issues a program (R65). Text is a list of characters. -/

namespace Sys2Proof.Machine

/-! ## Pseudo-commands (R64) -/

/-- R64: `HDR <u32>`, little-endian (R46). -/
def asmHdr (v : Word) : List Instr :=
  [.push (v.extractLsb' 0 8), .push (v.extractLsb' 8 8), .push (v.extractLsb' 16 8), .push (v.extractLsb' 24 8)]

/-- R64: `FEED <b0>, .., <bn-1>`. -/
def asmFeed (bs : List Byte) : List Instr := bs.map .push

/-- R64: `DECODE <u32>; <b0>, .., <bn-1>`. -/
def asmDecode (v : Word) (bs : List Byte) : List Instr := .start :: (asmHdr v ++ asmFeed bs) ++ [.endCmd]

/-- R64: `CONTAINER <c0>, .., <cm-1>`, the raw container bytes, header included. -/
def asmContainer (cs : List Byte) : List Instr := .start :: asmFeed cs ++ [.endCmd]

/-- R63, R65: a program image is the words of its commands in line order. -/
def assemble (is : List Instr) : List CmdWord := is.map encode

/-- R63: the host issues the words to the command port in that order, one a step. -/
def issue (ws : List CmdWord) : List PortInput := ws.map PortInput.ofCommand

/-! ## Text of one line (R63) -/

/-- The value of a hexadecimal digit. -/
def hexDigit (c : Char) : Option Nat :=
  let n := c.toNat
  if 48 ≤ n ∧ n ≤ 57 then some (n - 48)
  else if 65 ≤ n ∧ n ≤ 70 then some (n - 55)
  else if 97 ≤ n ∧ n ≤ 102 then some (n - 87)
  else none

/-- A non-empty row of digits in a base, after the value `acc` of the digits before it. -/
def parseDigits (base : Nat) : Nat → List Char → Option Nat
  | _, [] => none
  | acc, [c] => match hexDigit c with
    | some d => if d < base then some (acc * base + d) else none
    | none => none
  | acc, c :: t => match hexDigit c with
    | some d => if d < base then parseDigits base (acc * base + d) t else none
    | none => none

/-- R63: a `<byte>`, decimal 0 to 255 or hexadecimal `0x00` to `0xFF`. -/
def parseByte (cs : List Char) : Option Byte :=
  let value := match cs with
    | '0' :: 'x' :: t => parseDigits 16 0 t
    | _ => parseDigits 10 0 cs
  match value with
  | some n => if n ≤ 255 then some (BitVec.ofNat 8 n) else none
  | none => none

/-- The words of a line, `cur` the letters of the word being read, in reverse. -/
def lineWords : List Char → List Char → List (List Char)
  | [], cur => if cur.isEmpty then [] else [cur.reverse]
  | c :: t, cur =>
    if c = ' ' ∨ c = '\t' then
      if cur.isEmpty then lineWords t [] else cur.reverse :: lineWords t []
    else lineWords t (c :: cur)

/-- R63: one line, at most one command; `;` starts a comment. `none` where the line is no line of the syntax. -/
def parseLine (line : List Char) : Option (List Instr) :=
  match lineWords (line.takeWhile (· ≠ ';')) [] with
  | [] => some []
  | [['N', 'O', 'P']] => some [.nop]
  | [['S', 'T', 'A', 'R', 'T']] => some [.start]
  | [['E', 'N', 'D']] => some [.endCmd]
  | [['A', 'B', 'O', 'R', 'T']] => some [.abort]
  | [['P', 'U', 'S', 'H'], b] =>
    match parseByte b with
    | some v => some [.push v]
    | none => none
  | _ => none

/-- The commands of a program, line by line. -/
def parseLines : List (List Char) → Option (List Instr)
  | [] => some []
  | l :: t => match parseLine l, parseLines t with
    | some is, some rest => some (is ++ rest)
    | _, _ => none

/-- A hexadecimal digit, upper case. -/
def hexChar (n : Nat) : Char := if n < 10 then Char.ofNat (48 + n) else Char.ofNat (55 + n)

/-- The two digits of a byte. -/
def hexByte (b : Byte) : List Char := [hexChar (b.toNat / 16), hexChar (b.toNat % 16)]

/-- R63: a command's text; a reserved opcode has none. -/
def commandText : Instr → Option (List Char)
  | .nop => some ['N', 'O', 'P']
  | .start => some ['S', 'T', 'A', 'R', 'T']
  | .push b => some (['P', 'U', 'S', 'H', ' ', '0', 'x'] ++ hexByte b)
  | .endCmd => some ['E', 'N', 'D']
  | .abort => some ['A', 'B', 'O', 'R', 'T']
  | .reserved _ => none

/-- R63: a listing line, the word in hexadecimal and then its text, for example `0x02AA  PUSH 0xAA`. -/
def listingLine (w : CmdWord) : Option (List Char) :=
  match commandText (decode w) with
  | some t => some (['0', 'x'] ++ hexByte (opField w) ++ hexByte (dataField w) ++ [' ', ' '] ++ t)
  | none => none

end Sys2Proof.Machine
end

