-- ==== Sys2Proof/Machine/Ports.lean ====
section
/-! DEFINITION. The three read ports (spec/44_host_ports.md R97): functions of the state and of the port's inputs. They return no state, so no
read can change one (R49), and they may be read in any phase (R98, R102). -/

namespace Sys2Proof.Machine

/-- R21, R98: the register read port, `reg_addr[3:0]` to `reg_data[31:0]`. -/
def State.regRead (s : State) (addr : BitVec 4) : Word :=
  match addr.toNat with
  | 0x0 => s.statusWord
  | 0x1 => s.expected
  | 0x2 => s.hdrCnt.setWidth 32
  | 0x3 => s.cursor
  | 0x4 => s.digest
  | 0x5 => s.actual
  | 0x6 => s.outLen
  | 0x7 => BitVec.ofNat 32 s.keyLen
  | _ => 0

/-- The signals `out_ok` and `out_data[7:0]` (R97). -/
structure OutSignals where
  ok   : Bool
  data : Byte
  deriving DecidableEq, Repr

/-- R99: the byte the output read port gives; `none` is the port's "no output", never a byte. -/
def State.outByte (s : State) (addr : Word) : Option Byte :=
  if s.phase = .doneOk ∧ addr < s.outLen then s.outBuf.read addr.toNat else none

/-- R99: the signals of the output read port. -/
def State.outRead (s : State) (addr : Word) : OutSignals :=
  match s.outByte addr with
  | some b => { ok := true, data := b }
  | none => { ok := false, data := 0x00 }

/-- The signals `xf_out[7:0]`, `xf_next[31:0]` and `xf_ok` (R97). -/
structure ProbeSignals where
  out  : Byte
  next : Word
  ok   : Bool
  deriving DecidableEq, Repr

/-- R74: the transform probe port. It reads the key ROM and nothing else. -/
def State.probe (s : State) (b : Byte) (c : Word) : ProbeSignals :=
  match transform s.keyRom b c.toNat with
  | some (out, next) => { out := out, next := BitVec.ofNat 32 next, ok := true }
  | none => { out := 0x00, next := 0, ok := false }

/-- R103: how a job that has ended came out. -/
inductive JobOutcome where
  /-- DONE_OK with the output `OUTBUF[0 .. OUT_LEN-1]`. -/
  | ok (output : List Byte)
  /-- DONE_ERR with CHECKSUM_MISMATCH and the pair `(EXPECTED, ACTUAL)`. -/
  | mismatch (expected actual : Word)
  /-- DONE_ERR with any other error kind. -/
  | error (e : ErrKind)
  deriving DecidableEq, Repr

/-- R103: "A job has ended when PHASE is DONE_OK or DONE_ERR"; `none` while it has not. -/
def State.jobOutcome (s : State) : Option JobOutcome :=
  match s.phase with
  | .idle => none
  | .header => none
  | .body => none
  | .doneOk => some (.ok s.outBuf.bytes)
  | .doneErr =>
    match s.err with
    | .checksumMismatch => some (.mismatch s.expected s.actual)
    | .none => some (.error .none)
    | .truncatedHeader => some (.error .truncatedHeader)
    | .ioFailure => some (.error .ioFailure)
    | .unrecognizedExtension => some (.error .unrecognizedExtension)
    | .protocolError => some (.error .protocolError)
    | .capacityExceeded => some (.error .capacityExceeded)

end Sys2Proof.Machine
end

