-- ==== Sys2Proof/Machine/Reference.lean ====
section
/-! DEFINITION. The source's `decode`, as one function of a whole container and of the parameters (spec/43_stream_decoder.md R95). It shares the
byte transform and the digest with the machine and nothing of its phases, counters or buffer. -/

namespace Sys2Proof.Machine

/-- R46: the header's value, `zext_32(h0) | zext_32(h1) << 8 | zext_32(h2) << 16 | zext_32(h3) << 24`. -/
def headerValue (h0 h1 h2 h3 : Byte) : Word :=
  h0.setWidth 32 ||| (h1.setWidth 32 <<< 8) ||| (h2.setWidth 32 <<< 16) ||| (h3.setWidth 32 <<< 24)

/-- R95: the outcome of a container `C` on an instance with key table `key`, capacity `cap` and primitive `rc`. -/
def sourceDecode (key : List Byte) (cap : Nat) (rc : Rc) : List Byte → JobOutcome
  | h0 :: h1 :: h2 :: h3 :: payload =>
    let e := headerValue h0 h1 h2 h3
    let out := transformSeq key payload (e.toNat % key.length)
    if cap < payload.length then .error .capacityExceeded
    else if rcDigestOf rc out = e then .ok out
    else .mismatch e (rcDigestOf rc out)
  | _ => .error .truncatedHeader

end Sys2Proof.Machine
end

