-- ==== Sys2Proof/Machine/System.lean ====
section
/-! DEFINITION. `N_INST` instances of the core built against one key ROM (spec/00_scope.md R12, spec/60_exceptions.md R118). Which instance moves
next is an argument, so a statement holds for every order (spec/93_implementation_defined.md I4). -/

namespace Sys2Proof.Machine

/-- The instances, in an order that only the host gives a meaning (R118: there is no identifier register). -/
structure System where
  cores : List State
  deriving DecidableEq, Repr

/-- R118: each instance starts in IDLE on reset. -/
def System.reset : System := { cores := List.replicate Config.nInst State.reset }

/-- R118: every instance reads the one key ROM. -/
def System.sharesRom (y : System) (rom : Memory) : Prop := ∀ c ∈ y.cores, c.keyRom = rom

/-- The host presents these inputs to instance `k`, after what it was to present. -/
def System.presentAt (k : Nat) (inputs : List PortInput) (y : System) : System :=
  { cores := y.cores.modify k fun c => c.withHost (c.host ++ inputs) }

/-- R52, R118: one step of instance `k`, and of no other. -/
def System.stepAt (k : Nat) (y : System) : Host.Outcome System Fault Refusal :=
  match y.cores[k]? with
  | none => .fault .noSuchInstance
  | some c =>
    match step c with
    | .next c' => .next { cores := y.cores.set k c' }
    | .fault r => .fault r
    | .refused r => .refused r

end Sys2Proof.Machine
end

