-- ==== Sys2Proof/Safety.lean ====
section
/-! DEFINITION. What the claims speak of: the parameters as R8 bounds them, the invariants of spec/10_state.md R39 and of the rules it rests on,
and a run of commands through the command port. -/

namespace Sys2Proof.Machine

/-- R8, R9: the key ROM holds a key table of `L` bytes at addresses `0 .. L-1`, `1 <= L <= 2^32 - 1`. (`OUT_CAP` is in R11's bounds by
its type.) -/
structure State.ParamsOk (s : State) : Prop where
  romDense : s.keyRom.dense
  lenPos   : 1 ≤ s.keyLen
  lenMax   : s.keyLen ≤ 4294967295

/-- What holds in every reachable state: R39 line by line, and what R22 to R31, R81 and R112 say beside it. -/
structure State.Inv (s : State) : Prop where
  params    : s.ParamsOk
  /-- R39: `0 <= CURSOR < L`. -/
  cursorLt  : s.cursor.toNat < s.keyLen
  /-- R39: `HDR_CNT <= 4`. -/
  hdrLe     : s.hdrCnt.toNat ≤ 4
  /-- R39: `HDR_CNT < 4` when PHASE is HEADER. -/
  hdrHeader : s.phase = .header → s.hdrCnt.toNat < 4
  /-- R39: `HDR_CNT = 4` when PHASE is BODY or DONE_OK. -/
  hdrDone   : s.phase = .body ∨ s.phase = .doneOk → s.hdrCnt.toNat = 4
  /-- R26: the bits of header bytes not yet received are 0. -/
  hdrBits   : s.expected.toNat < 2 ^ (8 * s.hdrCnt.toNat)
  /-- R42: the output space is the addresses `0 .. OUT_LEN-1`. -/
  outDense  : s.outBuf.dense
  /-- R39: `OUT_LEN = len(OUTBUF)`. -/
  outLenEq  : s.outLen.toNat = s.outBuf.bytes.length
  /-- R39: `OUT_LEN <= OUT_CAP`. -/
  outLenLe  : s.outLen.toNat ≤ s.outCap.toNat
  /-- R39: `OUT_LEN = 0` when PHASE is IDLE, HEADER or DONE_ERR. -/
  outEmpty  : s.phase ≠ .body → s.phase ≠ .doneOk → s.outLen = 0
  /-- R39: `ERR = 0` exactly when PHASE is not DONE_ERR. -/
  errIff    : s.err = .none ↔ s.phase ≠ .doneErr
  /-- R112: the core never writes code 4. -/
  errCore   : s.err ≠ .unrecognizedExtension
  /-- R39: the checksum state is the fold over the output bytes when PHASE is BODY or DONE_OK. -/
  ckBody    : s.phase = .body ∨ s.phase = .doneOk → s.ck = rcFold s.prim s.prim.init s.outBuf.bytes
  /-- R81: no byte has been digested when PHASE is IDLE or HEADER. -/
  ckFresh   : s.phase = .idle ∨ s.phase = .header → s.ck = s.prim.init
  /-- R73: after `n` payload bytes the cursor is `(EXPECTED mod L + n) mod L`. -/
  cursorAt  : s.phase = .body ∨ s.phase = .doneOk →
    s.cursor.toNat = (s.expected.toNat % s.keyLen + s.outLen.toNat) % s.keyLen
  /-- R28, R89, R120: the cursor is 0 until the header is complete. -/
  cursorNew : s.phase = .idle ∨ s.phase = .header → s.cursor = 0
  /-- R30: ACTUAL is 0 until a verify gate has run. -/
  actualNew : s.phase = .idle ∨ s.phase = .header ∨ s.phase = .body → s.actual = 0
  /-- R39: `ACTUAL = EXPECTED = RC.digest(CK)` when PHASE is DONE_OK. -/
  verified  : s.phase = .doneOk → s.actual = s.expected ∧ s.digest = s.expected
  /-- R120: no header byte has been received when PHASE is IDLE. -/
  idleEmpty : s.phase = .idle → s.hdrCnt = 0

/-- The host presents exactly these commands, in order, and the core runs them (R86, R103). -/
def runCommands (is : List Instr) (s : State) : Host.Outcome State Fault Refusal :=
  Host.Core.run Sys2Proof.core is.length (s.withHost (issue (assemble is)))

/-- R84: the tamper-detection property a claim must assume by name and can never derive from the core: the digests of two
sequences of equal length that differ in one byte differ. -/
def rcDetectsOneByte (rc : Rc) : Prop :=
  ∀ (front back : List Byte) (x y : Byte), x ≠ y →
    rcDigestOf rc (front ++ x :: back) ≠ rcDigestOf rc (front ++ y :: back)

end Sys2Proof.Machine
end

