-- ==== Sys2Proof/Certificates/Slice0/Obligations.lean ====
section
/-! DEFINITION. The statements about the model, each from the numbered rules of spec/ that its docstring names. Where a statement is about a next
state, the state is written out field by field, so that what is not named is unchanged. -/

open Sys2Proof Sys2Proof.Machine

/-! ## Encoding -/

/-- R57, R58: words written out from the opcode map, ignored DATA among them. -/
def Obligations.WrittenWordsDecode : Prop :=
  decode 0b0000000000000000 = .nop ∧ decode 0b0000000010101011 = .nop ∧
  decode 0b0000000100000000 = .start ∧ decode 0b0000000111111111 = .start ∧
  decode 0b0000001010101010 = .push 0xAA ∧ decode 0b0000001000000001 = .push 0x01 ∧
  decode 0b0000001100000000 = .endCmd ∧ decode 0b0000001111001101 = .endCmd ∧
  decode 0b0000010000000000 = .abort ∧
  decode 0b0000010100000000 = .reserved 0x05 ∧ decode 0b1111111100000000 = .reserved 0xFF

/-- R57, R58: every well-formed command's word decodes to it, for every byte of PUSH and every reserved opcode. -/
def Obligations.DecodeEncodeRoundTrip : Prop :=
  ∀ i : Instr, i.wellFormed = true → decode (encode i) = i

/-- R57, R60: a word decodes and encodes to itself, but for the DATA byte a command ignores, which the assembler writes as 0x00. -/
def Obligations.EncodeDecodeKeepsEveryUsedBit : Prop :=
  ∀ w : CmdWord, encode (decode w) = if (decode w).mnemonic = .PUSH then w else cmdWord (opField w) 0x00

/-- R61: decoding is total and unambiguous: each word selects one row of the opcode map, decodes to a well-formed command of
that row, and does so by OP alone. (The spec marks R61 as its own inference, [derived].) -/
def Obligations.EveryWordIsExactlyOneCommand : Prop :=
  ∀ w : CmdWord,
    (∃ r ∈ opcodeTable, r.selects w = true ∧ r.mnemonic = (decode w).mnemonic ∧
      ∀ r' ∈ opcodeTable, r'.selects w = true → r' = r) ∧
    (decode w).wellFormed = true ∧
    (∀ b, decode w = .push b → b = dataField w) ∧
    (∀ op, decode w = .reserved op → op = opField w) ∧
    (∀ w' : CmdWord, opField w' = opField w → (decode w').mnemonic = (decode w).mnemonic) ∧
    (∀ w' : CmdWord, opField w' = opField w → (decode w).mnemonic ≠ .PUSH → decode w' = decode w)

/-! ## The assembler -/

/-- R64 with R46: DECODE of a header value and a payload is CONTAINER of the header's four bytes, least significant first, and the
payload. -/
def Obligations.DecodePseudoCommandIsContainer : Prop :=
  ∀ (v : Word) (p : List Byte), ∃ h0 h1 h2 h3 : Byte,
    asmDecode v p = asmContainer (h0 :: h1 :: h2 :: h3 :: p) ∧
    v = (h0.setWidth 32 ||| (h1.setWidth 32 <<< 8) ||| (h2.setWidth 32 <<< 16) ||| (h3.setWidth 32 <<< 24))

/-- R63: the text of every command that has one is a line of the syntax and is read back as that command; so is the text
with a comment behind it. The spelling of numbers and spaces is log entry 10's. -/
def Obligations.CommandTextReadsBack : Prop :=
  ∀ (i : Instr) (text comment : List Char), commandText i = some text →
    parseLine text = some [i] ∧ parseLine (text ++ ';' :: comment) = some [i]

/-! ## One step -/

/-- R86, R97: a command presented on the command port is decoded and executed, and the host's next presentation follows it. -/
def Obligations.StepRunsThePresentedCommand : Prop :=
  ∀ (s : State) (i : Instr) (w : CmdWord) (rest : List PortInput),
    s.host = { rst := false, cmdValid := true, cmdWord := w } :: rest → decode w = i → i.wellFormed = true →
    step s = exec i { s with host := rest }

/-- The model's choice of log entry 4: the word `withFetchWord` places is what the very next step runs, on the same state. -/
def Obligations.PlacedWordRunsNext : Prop :=
  ∀ (s : State) (w : CmdWord), step (s.withFetchWord 16 w.toNat) = exec (decode w) s

/-- R120: reset gives every register its reset value and leaves the key ROM (and what the core is built with) alone. -/
def Obligations.ResetSetsEveryRegister : Prop :=
  ∀ (s : State) (w : CmdWord) (rest : List PortInput),
    s.host = { rst := true, cmdValid := false, cmdWord := w } :: rest →
    step s = .next
      { phase := .idle, err := .none, expected := 0, hdrCnt := 0, cursor := 0, ck := s.prim.init, actual := 0, outLen := 0,
        outBuf := [], keyRom := s.keyRom, outCap := s.outCap, rc := s.rc, host := rest }

/-- R114, R121 as log entry 6 reads them: a command presented together with `rst` is not done at all. -/
def Obligations.ResetWinsOverACommand : Prop :=
  ∀ (s : State) (w : CmdWord) (rest : List PortInput),
    step (s.withHost ({ rst := true, cmdValid := true, cmdWord := w } :: rest)) =
      step (s.withHost ({ rst := true, cmdValid := false, cmdWord := 0x0000 } :: rest))

/-- R38, R120: what the register read port shows right after reset, and that no output can be read. -/
def Obligations.ResetStateReadsAsTheTable : Prop :=
  State.reset.regRead 0x0 = 0x00000000 ∧ State.reset.regRead 0x1 = 0x00000000 ∧ State.reset.regRead 0x2 = 0 ∧
  State.reset.regRead 0x3 = 0 ∧ State.reset.regRead 0x4 = Config.rc.digest Config.rc.init ∧
  State.reset.regRead 0x5 = 0x00000000 ∧ State.reset.regRead 0x6 = 0 ∧
  (State.reset.regRead 0x7).toNat = Config.keyLen ∧ State.reset.outBuf = [] ∧
  (∀ i, i < Config.keyLen → State.reset.keyRom.read i = some (Config.keyByte i))

/-- R119, with the model's choice of log entry 4 (a step in which the host presents nothing): between commands the core holds its
state. -/
def Obligations.SilenceHoldsTheState : Prop :=
  (∀ s : State, s.host = [] → step s = .next s) ∧
  (∀ (s : State) (w : CmdWord) (rest : List PortInput),
    s.host = { rst := false, cmdValid := false, cmdWord := w } :: rest → step s = .next { s with host := rest })

/-! ## Commands -/

/-- R88: OP 0x00 with any DATA is NOP, and NOP changes nothing, in every phase. -/
def Obligations.NopChangesNothing : Prop :=
  (∀ data : Byte, decode (cmdWord 0x00 data) = .nop) ∧ ∀ s : State, exec .nop s = .next s

/-- R89: OP 0x01 with any DATA is START, and START opens a fresh job, in every phase; no other command leaves DONE_ERR. -/
def Obligations.StartOpensAFreshJob : Prop :=
  (∀ data : Byte, decode (cmdWord 0x01 data) = .start) ∧
  (∀ s : State, exec .start s = .next
    { s with
      phase := .header, err := .none, expected := 0, hdrCnt := 0, cursor := 0, ck := s.prim.init, actual := 0, outLen := 0,
      outBuf := [] }) ∧
  (∀ (s t : State) (i : Instr), s.phase = .doneErr → exec i s = .next t → t.phase ≠ .doneErr → i = .start)

/-- R122: reset and START leave the same state but for PHASE; in IDLE only START opens a job, and PUSH, END and ABORT end in
PROTOCOL_ERROR. (The spec marks R122 as its own inference, [derived].) -/
def Obligations.ResetAndStartDifferOnlyInPhase : Prop :=
  (∀ (s : State) (w : CmdWord), ∃ r : State,
    step (s.withHost ({ rst := true, cmdValid := false, cmdWord := w } :: s.host)) = .next r ∧ r.phase = .idle ∧
    exec .start s = .next { r with phase := .header }) ∧
  (∀ (s t : State) (i : Instr), s.phase = .idle → exec i s = .next t → t.phase = .header → i = .start) ∧
  (∀ (s : State) (i : Instr), s.phase = .idle → (i = .endCmd ∨ i = .abort ∨ ∃ b, i = .push b) →
    exec i s = .next { s with err := .protocolError, phase := .doneErr, outBuf := [], outLen := 0 })

/-- R90 in HEADER, R26, R27: a header byte before the fourth goes to bits `[8k+7 : 8k]` of EXPECTED, `k` being HDR_CNT, and is
counted; nothing else changes. -/
def Obligations.PushTakesAHeaderByte : Prop :=
  ∀ (s : State) (b : Byte), s.phase = .header → s.hdrCnt.toNat < 3 →
    ∃ e : Word, exec (.push b) s = .next { s with expected := e, hdrCnt := s.hdrCnt + 1 } ∧
      ∀ i, i < 32 → e.getLsbD i =
        if 8 * s.hdrCnt.toNat ≤ i ∧ i < 8 * s.hdrCnt.toNat + 8 then b.getLsbD (i - 8 * s.hdrCnt.toNat)
        else s.expected.getLsbD i

/-- R90 in HEADER, R28, R79: the fourth header byte completes EXPECTED, sets CURSOR to `EXPECTED mod L`, initialises the checksum
and begins the body, all in one command. -/
def Obligations.FourthHeaderByteBeginsTheBody : Prop :=
  ∀ (s : State) (b : Byte), s.phase = .header → s.hdrCnt.toNat = 3 → 1 ≤ s.keyLen → s.keyLen ≤ 4294967295 →
    ∃ (e c : Word), exec (.push b) s = .next
        { s with expected := e, hdrCnt := 4, cursor := c, ck := s.prim.init, phase := .body } ∧
      c.toNat = e.toNat % s.keyLen ∧
      ∀ i, i < 32 → e.getLsbD i = if 24 ≤ i then b.getLsbD (i - 24) else s.expected.getLsbD i

/-- R90 in BODY, R43, R68, R80: one payload byte is XORed with the key byte at the cursor, reversed, appended at address OUT_LEN and
digested; the cursor moves one position on. -/
def Obligations.PushTransformsAPayloadByte : Prop :=
  ∀ (s : State) (b : Byte) (key : List Byte), s.phase = .body → s.keyRom = Memory.ofBytes key →
    key.length ≤ 4294967295 → s.cursor.toNat < key.length → s.outLen < s.outCap →
    ∃ (out : Byte) (c : Word),
      exec (.push b) s = .next
        { s with
          cursor := c, outBuf := s.outBuf.write s.outAppendAddr out, outLen := s.outLen + 1,
          ck := s.prim.update s.ck out } ∧
      c.toNat = (s.cursor.toNat + 1) % key.length ∧
      (∀ i, i < 8 → out.getLsbD i = (b ^^^ key.getD s.cursor.toNat 0).getLsbD (7 - i)) ∧
      (s.outBuf.write s.outAppendAddr out).read s.outAppendAddr = some out

/-- R111: a payload byte that does not fit is not transformed, not digested and does not move the cursor. -/
def Obligations.FullBufferEndsTheJob : Prop :=
  ∀ (s : State) (b : Byte), s.phase = .body → s.outLen = s.outCap →
    exec (.push b) s = .next { s with err := .capacityExceeded, phase := .doneErr, outBuf := [], outLen := 0 }

/-- R107: END with fewer than 4 header bytes received; HDR_CNT and the bytes received stay in place. -/
def Obligations.EndInHeaderIsTruncated : Prop :=
  ∀ s : State, s.phase = .header →
    exec .endCmd s = .next { s with err := .truncatedHeader, phase := .doneErr, outBuf := [], outLen := 0 }

/-- R82: the verify gate captures the digest and releases the output exactly when the digest equals EXPECTED. -/
def Obligations.VerifyGateComparesDigest : Prop :=
  ∀ s : State, s.phase = .body →
    (s.prim.digest s.ck = s.expected →
      exec .endCmd s = .next { s with actual := s.prim.digest s.ck, phase := .doneOk }) ∧
    (s.prim.digest s.ck ≠ s.expected →
      exec .endCmd s = .next
        { s with
          actual := s.prim.digest s.ck, err := .checksumMismatch, phase := .doneErr, outBuf := [], outLen := 0 })

/-- R92: OP 0x04 with any DATA is ABORT, and what it does, by phase. -/
def Obligations.AbortEndsTheJob : Prop :=
  (∀ data : Byte, decode (cmdWord 0x04 data) = .abort) ∧
  ∀ s : State,
    (s.phase = .header ∨ s.phase = .body ∨ s.phase = .doneOk →
      exec .abort s = .next { s with err := .ioFailure, phase := .doneErr, outBuf := [], outLen := 0 }) ∧
    (s.phase = .idle →
      exec .abort s = .next { s with err := .protocolError, phase := .doneErr, outBuf := [], outLen := 0 }) ∧
    (s.phase = .doneErr → exec .abort s = .next s)

/-- R93: OP 0x05 to 0xFF with any DATA is reserved, and a reserved opcode, whichever it is, ends the job with PROTOCOL_ERROR, except
in DONE_ERR. -/
def Obligations.ReservedOpcodeEndsTheJob : Prop :=
  (∀ op data : Byte, 0x05 ≤ op.toNat → decode (cmdWord op data) = .reserved op) ∧
  ∀ (s : State) (op : Byte),
    (s.phase ≠ .doneErr →
      exec (.reserved op) s = .next { s with err := .protocolError, phase := .doneErr, outBuf := [], outLen := 0 }) ∧
    (s.phase = .doneErr → exec (.reserved op) s = .next s)

/-- R110: PROTOCOL_ERROR comes from exactly these commands in exactly these phases; in DONE_ERR none of them raises it. -/
def Obligations.ProtocolErrorExactlyOutOfPhase : Prop :=
  (∀ (s : State) (i : Instr), s.phase ≠ .doneErr → s.err ≠ .protocolError →
    ((∃ t, exec i s = .next t ∧ t.err = .protocolError) ↔
      (((∃ b, i = .push b) ∨ i = .endCmd) ∧ (s.phase = .idle ∨ s.phase = .doneOk)) ∨
      (i = .abort ∧ s.phase = .idle) ∨ (∃ op, i = .reserved op))) ∧
  (∀ (s t : State) (i : Instr), s.phase = .doneErr → s.err ≠ .protocolError → exec i s = .next t → t.err ≠ .protocolError)

/-! ## Errors -/

/-- R113: whatever command ends a job with an error, the error entry writes ERR and PHASE, discards the output, and keeps EXPECTED,
HDR_CNT, CURSOR and CK; ACTUAL changes only where the verify gate wrote it first. -/
def Obligations.ErrorEntryKeepsTheOtherRegisters : Prop :=
  ∀ (s t : State) (i : Instr), exec i s = .next t → s.phase ≠ .doneErr → t.phase = .doneErr →
    t.err ≠ .none ∧ t.outBuf = [] ∧ t.outLen = 0 ∧ t.outValid = false ∧
    t.expected = s.expected ∧ t.hdrCnt = s.hdrCnt ∧ t.cursor = s.cursor ∧ t.ck = s.ck ∧
    t.keyRom = s.keyRom ∧ t.outCap = s.outCap ∧ t.rc = s.rc ∧ t.host = s.host ∧
    (t.actual = s.actual ∨ (t.err = .checksumMismatch ∧ t.actual = s.prim.digest s.ck))

/-- R114: once PHASE is DONE_ERR every command but START leaves the whole state alone, so a later error is never recorded over an
earlier one. -/
def Obligations.FirstErrorIsKept : Prop :=
  ∀ (s : State) (i : Instr), s.phase = .doneErr → i ≠ .start → exec i s = .next s

/-- R115: the only ways out of DONE_ERR are START and reset. Where `cmd_valid` stands together with `rst`, that the phase is IDLE is the
model's reading of log entry 6 (DEDUCED): the command presented with the reset is not done. -/
def Obligations.OnlyStartOrResetLeavesAnError : Prop :=
  ∀ s t : State, s.phase = .doneErr → step s = .next t → t.phase ≠ .doneErr →
    ∃ (p : PortInput) (rest : List PortInput), s.host = p :: rest ∧
      ((p.rst = true ∧ t.phase = .idle) ∨
       (p.rst = false ∧ p.cmdValid = true ∧ opField p.cmdWord = 0x01 ∧ t.phase = .header))

/-- R22, R106: by which command, in which phase, each of the five phases can be entered; DONE_OK by END alone (R91), and only when the
digest matches (R82); DONE_ERR by exactly the causes R106 lists, each with its own error kind. -/
def Obligations.WhoEntersEachPhase : Prop :=
  ∀ (s t : State) (i : Instr), exec i s = .next t →
    (t.phase = .idle → t = s) ∧
    (t.phase = .header → t = s ∨ i = .start ∨ (s.phase = .header ∧ s.hdrCnt.toNat < 3 ∧ ∃ b, i = .push b)) ∧
    (t.phase = .body → t = s ∨ ((∃ b, i = .push b) ∧ (s.phase = .body ∨ (s.phase = .header ∧ s.hdrCnt.toNat = 3)))) ∧
    (t.phase = .doneOk → t = s ∨ (i = .endCmd ∧ s.phase = .body ∧ s.digest = s.expected)) ∧
    (t.phase = .doneErr → (s.phase = .doneErr ∧ t = s) ∨ (s.phase ≠ .doneErr ∧
      ((i = .endCmd ∧ s.phase = .header ∧ t.err = .truncatedHeader) ∨
       (i = .endCmd ∧ s.phase = .body ∧ s.digest ≠ s.expected ∧ t.err = .checksumMismatch) ∨
       (i = .abort ∧ s.phase ≠ .idle ∧ t.err = .ioFailure) ∨
       ((∃ b, i = .push b) ∧ s.phase = .body ∧ s.outLen = s.outCap ∧ t.err = .capacityExceeded) ∨
       (((∃ b, i = .push b) ∨ i = .endCmd) ∧ (s.phase = .idle ∨ s.phase = .doneOk) ∧ t.err = .protocolError) ∨
       (i = .abort ∧ s.phase = .idle ∧ t.err = .protocolError) ∨
       ((∃ op, i = .reserved op) ∧ t.err = .protocolError))))

/-- R41 and spec/93_implementation_defined.md I8, I12, and the model's choice of log entry 5: the stops in states that no run
reaches. -/
def Obligations.NeverProducedValuesFault : Prop :=
  (∀ (s : State) (b : Byte), s.phase = .body → s.outLen ≠ s.outCap → s.keyLen ≤ s.cursor.toNat →
    exec (.push b) s = .fault .keyIndexOutOfRange) ∧
  (∀ (s : State) (b : Byte), s.phase = .header → 4 ≤ s.hdrCnt.toNat →
    exec (.push b) s = .fault .headerCountOutOfRange) ∧
  (∀ (s : State) (b : Byte), s.phase = .header → s.hdrCnt.toNat = 3 → (s.keyLen = 0 ∨ 4294967295 < s.keyLen) →
    exec (.push b) s = .fault .keyLenOutOfRange) ∧
  (∀ (s : State) (b : Byte), s.phase = .body → s.keyRom.dense → s.cursor.toNat < s.keyLen → s.outCap < s.outLen →
    exec (.push b) s = .fault .outAppendPrecondition)

/-! ## Frames -/

/-- What PUSH leaves alone (R90): every register it is not said to write, and every byte of the output space but the one at the
address `OutAppend` stores to, unless the job ends there and then with an error. -/
def Obligations.PushFrame : Prop :=
  ∀ (s t : State) (b : Byte), exec (.push b) s = .next t →
    (t.actual = s.actual ∧ t.keyRom = s.keyRom ∧ t.outCap = s.outCap ∧ t.rc = s.rc ∧ t.host = s.host) ∧
    (s.phase ≠ .header → t.expected = s.expected ∧ t.hdrCnt = s.hdrCnt) ∧
    (s.phase ≠ .body → s.phase ≠ .header → t.cursor = s.cursor ∧ t.ck = s.ck) ∧
    (s.phase = .header → t.phase = .header → t.cursor = s.cursor ∧ t.ck = s.ck) ∧
    (s.phase = .header → t.err = s.err ∧ t.outLen = s.outLen ∧ ∀ a, t.outBuf.read a = s.outBuf.read a) ∧
    (s.phase = .body → t.phase = .body →
      t.err = s.err ∧ ∀ a, a ≠ s.outAppendAddr → t.outBuf.read a = s.outBuf.read a) ∧
    (s.phase = .body → t.phase ≠ .body → t.cursor = s.cursor ∧ t.ck = s.ck)

/-- What the commands that store nothing leave alone (R88, R91 to R93, R113): EXPECTED, HDR_CNT, CURSOR, CK and all that the core is
built with; ACTUAL but for END in BODY; and, unless the job ends there and then with an error, every byte of the output space. -/
def Obligations.NonStoringFrame : Prop :=
  ∀ (s t : State) (i : Instr), (i = .nop ∨ i = .endCmd ∨ i = .abort ∨ ∃ op, i = .reserved op) → exec i s = .next t →
    (t.expected = s.expected ∧ t.hdrCnt = s.hdrCnt ∧ t.cursor = s.cursor ∧ t.ck = s.ck ∧
      t.keyRom = s.keyRom ∧ t.outCap = s.outCap ∧ t.rc = s.rc ∧ t.host = s.host) ∧
    ((i = .endCmd → s.phase ≠ .body) → t.actual = s.actual) ∧
    ((t.phase = .doneErr → s.phase = .doneErr) →
      t.err = s.err ∧ t.outLen = s.outLen ∧ ∀ a, t.outBuf.read a = s.outBuf.read a)

/-- R26 to R31: which commands write each data register, over the whole command set. -/
def Obligations.WhoWritesEachRegister : Prop :=
  ∀ (s t : State) (i : Instr), exec i s = .next t →
    (t.expected ≠ s.expected ∨ t.hdrCnt ≠ s.hdrCnt → i = .start ∨ (s.phase = .header ∧ ∃ b, i = .push b)) ∧
    (t.cursor ≠ s.cursor ∨ t.ck ≠ s.ck →
      i = .start ∨ ((∃ b, i = .push b) ∧ ((s.phase = .header ∧ s.hdrCnt.toNat = 3) ∨ s.phase = .body))) ∧
    (t.actual ≠ s.actual → i = .start ∨ (i = .endCmd ∧ s.phase = .body)) ∧
    (t.outLen ≠ s.outLen → i = .start ∨ (s.phase = .body ∧ ∃ b, i = .push b) ∨ (s.phase ≠ .doneErr ∧ t.phase = .doneErr)) ∧
    (∀ a, t.outBuf.read a ≠ s.outBuf.read a →
      i = .start ∨ (s.phase = .body ∧ a = s.outAppendAddr ∧ ∃ b, i = .push b) ∨
      (s.phase ≠ .doneErr ∧ t.phase = .doneErr))

/-- R34, R37: no step, be it a command or a reset, writes the key ROM or what the core is built with. -/
def Obligations.NoStepWritesTheKeyRom : Prop :=
  ∀ s t : State, step s = .next t → t.keyRom = s.keyRom ∧ t.outCap = s.outCap ∧ t.rc = s.rc

/-! ## Invariants -/

/-- R39: the invariant holds right after reset. (The spec marks R39 as its own inference, [derived].) -/
def Obligations.InvariantHoldsAtReset : Prop := State.reset.Inv

/-- R39: every step, from any state that meets the invariant, gives a state that meets it. (The spec marks R39 as its own
inference, [derived].) -/
def Obligations.StepKeepsTheInvariant : Prop :=
  ∀ s t : State, s.Inv → step s = .next t → t.Inv

/-- R86: every command is defined in every phase; a state that meets the invariant never stops. -/
def Obligations.InvariantStatesNeverStop : Prop :=
  ∀ s : State, s.Inv → (∀ i : Instr, ∃ t, exec i s = .next t) ∧ ∃ t, step s = .next t

/-- R81: the DIGEST register reads the digest of every output byte produced so far. (The spec marks R81 as its own
inference, [derived].) -/
def Obligations.DigestIsOfTheOutput : Prop :=
  ∀ s : State, s.Inv →
    (s.phase = .body ∨ s.phase = .doneOk →
      s.ck = rcFold s.prim s.prim.init s.outBuf.bytes ∧ s.regRead 0x4 = rcDigestOf s.prim s.outBuf.bytes) ∧
    (s.phase = .idle ∨ s.phase = .header → s.regRead 0x4 = rcDigestOf s.prim [])

/-! ## Ports -/

/-- R22 to R25: the fields of STATUS, and that its other bits read as 0. -/
def Obligations.StatusFields : Prop :=
  ∀ s : State,
    ((s.regRead 0x0).extractLsb' 0 3).toNat =
      (match s.phase with | .idle => 0 | .header => 1 | .body => 2 | .doneOk => 3 | .doneErr => 4) ∧
    (s.regRead 0x0).getLsbD 3 = false ∧
    ((s.regRead 0x0).extractLsb' 4 4).toNat =
      (match s.err with
        | .none => 0 | .truncatedHeader => 1 | .checksumMismatch => 2 | .ioFailure => 3 | .unrecognizedExtension => 4
        | .protocolError => 5 | .capacityExceeded => 6) ∧
    ((s.regRead 0x0).getLsbD 8 = true ↔ s.phase = .doneOk) ∧
    (∀ i, 9 ≤ i → (s.regRead 0x0).getLsbD i = false)

/-- R21, R32, R33: the data registers of the map, and that the reserved addresses read as 0. -/
def Obligations.RegisterMapReads : Prop :=
  ∀ s : State, s.keyLen ≤ 4294967295 →
    s.regRead 0x1 = s.expected ∧ (s.regRead 0x2).toNat = s.hdrCnt.toNat ∧ s.regRead 0x3 = s.cursor ∧
    s.regRead 0x4 = s.prim.digest s.ck ∧ s.regRead 0x5 = s.actual ∧ s.regRead 0x6 = s.outLen ∧
    (s.regRead 0x7).toNat = s.keyLen ∧ ∀ addr : BitVec 4, 0x8 ≤ addr.toNat → s.regRead addr = 0x00000000

/-- R99: the output read port. -/
def Obligations.OutputPortIsGated : Prop :=
  ∀ (s : State) (addr : Word), s.Inv →
    (s.phase = .doneOk ∧ addr < s.outLen →
      (s.outRead addr).ok = true ∧ s.outBuf.bytes[addr.toNat]? = some (s.outRead addr).data) ∧
    (¬(s.phase = .doneOk ∧ addr < s.outLen) → s.outRead addr = { ok := false, data := 0x00 })

/-- R100: before the verify gate has matched no output byte is readable on any port: the output port gives none, and with the other
registers as they are, CK among them, every port reads the same whatever bytes OUTBUF holds; a job that ends in DONE_ERR has an empty
buffer. DIGEST, CURSOR and OUT_LEN are readable during BODY, so the digest and the count of the output do show. (The spec marks R100
as its own inference, [derived].) -/
def Obligations.NothingIsReleasedBeforeTheGate : Prop :=
  (∀ (s : State) (other : Memory), s.phase ≠ .doneOk →
    (∀ addr, s.outRead addr = { ok := false, data := 0x00 }) ∧
    (∀ addr, ({ s with outBuf := other } : State).outRead addr = s.outRead addr) ∧
    (∀ addr, ({ s with outBuf := other } : State).regRead addr = s.regRead addr) ∧
    (∀ b c, ({ s with outBuf := other } : State).probe b c = s.probe b c)) ∧
  (∀ (s t : State) (i : Instr), exec i s = .next t → s.phase ≠ .doneErr → t.phase = .doneErr → t.outBuf = []) ∧
  (∀ s : State, s.phase = .body →
    s.regRead 0x4 = s.prim.digest s.ck ∧ s.regRead 0x3 = s.cursor ∧ s.regRead 0x6 = s.outLen)

/-- R126: the released output reads the same for as long as PHASE stays DONE_OK; a NOP keeps it there and every other
command, and reset, ends that. (The spec marks R126 as its own inference, [derived].) -/
def Obligations.ReleasedOutputIsStable : Prop :=
  (∀ s t : State, s.phase = .doneOk → step s = .next t → t.phase = .doneOk → ∀ addr, t.outRead addr = s.outRead addr) ∧
  (∀ s : State, s.phase = .doneOk → ∃ t, exec .nop s = .next t ∧ t.phase = .doneOk) ∧
  (∀ (s : State) (i : Instr), s.phase = .doneOk → i ≠ .nop →
    ∃ t, exec i s = .next t ∧ ∀ addr, t.outRead addr = { ok := false, data := 0x00 }) ∧
  (∀ (s : State) (w : CmdWord) (rest : List PortInput), s.phase = .doneOk →
    ∃ t, step (s.withHost ({ rst := true, cmdValid := false, cmdWord := w } :: rest)) = .next t ∧
      ∀ addr, t.outRead addr = { ok := false, data := 0x00 })

/-- R74: the transform probe port; it reads the key ROM and nothing else. -/
def Obligations.ProbePortIsTheTransform : Prop :=
  (∀ (s t : State) (b : Byte) (c : Word), s.keyRom = t.keyRom → s.probe b c = t.probe b c) ∧
  ∀ (s : State) (key : List Byte) (b : Byte) (c : Word), s.keyRom = Memory.ofBytes key → key.length ≤ 4294967295 →
    (c.toNat < key.length →
      (s.probe b c).ok = true ∧ (s.probe b c).out = rev8 (b ^^^ key.getD c.toNat 0) ∧
      (s.probe b c).next.toNat = (c.toNat + 1) % key.length) ∧
    (key.length ≤ c.toNat → s.probe b c = { out := 0x00, next := 0, ok := false })

/-! ## The cipher -/

/-- R66: bit `i` of the reversed byte is bit `7 - i`. -/
def Obligations.Rev8ReversesAllBits : Prop :=
  ∀ (b : Byte) (i : Nat), i < 8 → (rev8 b).getLsbD i = b.getLsbD (7 - i)

/-- R67: the laws of the reversal and its sixteen fixed points. (The spec marks R67 as its own inference, [derived].) -/
def Obligations.Rev8Laws : Prop :=
  (∀ b : Byte, rev8 (rev8 b) = b) ∧
  (∀ a b : Byte, rev8 (a ^^^ b) = rev8 a ^^^ rev8 b) ∧
  Function.Bijective rev8 ∧
  (∀ b : Byte, rev8 b = b ↔ b ∈ ([0x00, 0x18, 0x24, 0x3C, 0x42, 0x5A, 0x66, 0x7E, 0x81, 0x99, 0xA5, 0xBD, 0xC3, 0xDB,
    0xE7, 0xFF] : List Byte))

/-- R69: the transform's output is its input byte XORed with the unreversed key byte and then reversed, which is the two reversals
XORed; reversing first and then XORing with the key byte gives that output only where the key byte reads the same both ways. (The
spec marks R69 as its own inference, [derived].) -/
def Obligations.XorComesBeforeTheReversal : Prop :=
  ∀ (key : List Byte) (b : Byte) (c : Nat), c < key.length →
    ∃ (out : Byte) (next : Nat), transform (Memory.ofBytes key) b c = some (out, next) ∧
      (∀ i, i < 8 → out.getLsbD i = (b ^^^ key.getD c 0).getLsbD (7 - i)) ∧
      out = rev8 b ^^^ rev8 (key.getD c 0) ∧
      (rev8 b ^^^ key.getD c 0 = out ↔ ∀ i, i < 8 → (key.getD c 0).getLsbD i = (key.getD c 0).getLsbD (7 - i))

/-- R68, R70, R71: the transform on its whole domain, and no result outside it. -/
def Obligations.TransformOnItsDomain : Prop :=
  ∀ (key : List Byte) (b : Byte) (c : Nat),
    (c < key.length →
      transform (Memory.ofBytes key) b c =
        some (rev8 (b ^^^ key.getD c 0), if c + 1 < key.length then c + 1 else 0)) ∧
    (key.length ≤ c → transform (Memory.ofBytes key) b c = none)

/-- R72: the encoder and the transform undo each other at every cursor. (The spec marks R72 as its own inference,
[derived].) -/
def Obligations.EncryptAndTransformAreInverse : Prop :=
  ∀ (key : List Byte) (x : Byte) (c : Nat), c < key.length →
    (∃ e, encrypt (Memory.ofBytes key) x c = some e ∧
      transform (Memory.ofBytes key) e c = some (x, (c + 1) % key.length)) ∧
    (∃ out next, transform (Memory.ofBytes key) x c = some (out, next) ∧
      encrypt (Memory.ofBytes key) out c = some x)

/-- R73: the transform applied byte by byte gives the closed form, each byte by its position, and leaves the cursor `n`
positions on. (The spec marks R73 as its own inference, [derived].) -/
def Obligations.CursorTrajectory : Prop :=
  ∀ (key payload : List Byte) (c0 : Nat), c0 < key.length →
    ∃ out : List Byte,
      transformRun (Memory.ofBytes key) payload c0 = some (out, (c0 + payload.length) % key.length) ∧
      out.length = payload.length ∧
      ∀ i, i < payload.length →
        out.getD i 0 = rev8 (payload.getD i 0 ^^^ key.getD ((c0 + i) % key.length) 0)

/-! ## Jobs -/

/-- R46, R94: START and four PUSHes assemble the header little-endian, and none of its bytes is transformed, digested or
output. (The spec marks R94 as its own inference, [derived].) -/
def Obligations.HeaderIsLittleEndian : Prop :=
  ∀ (s : State) (h0 h1 h2 h3 : Byte), s.ParamsOk →
    ∃ t, runCommands [.start, .push h0, .push h1, .push h2, .push h3] s = .next t ∧
      t.expected = (h0.setWidth 32 ||| (h1.setWidth 32 <<< 8) ||| (h2.setWidth 32 <<< 16) ||| (h3.setWidth 32 <<< 24)) ∧
      t.phase = .body ∧ t.cursor.toNat = t.expected.toNat % s.keyLen ∧ t.ck = s.prim.init ∧ t.outLen = 0 ∧ t.outBuf = []

/-- R95: running START, one PUSH per container byte and END, from any state and with NOPs anywhere, ends as the source's
`decode` of the container. (The spec marks R95 as its own inference, [derived].) -/
def Obligations.ContainerRunIsTheSourceDecode : Prop :=
  ∀ (s : State) (c : List Byte) (is : List Instr), s.ParamsOk → is.filter (fun i => decide (i ≠ .nop)) = asmContainer c →
    ∃ t, runCommands is s = .next t ∧
      t.jobOutcome = some (sourceDecode s.keyRom.bytes s.outCap.toNat s.prim c) ∧
      (c.length < 4 → t.phase = .doneErr ∧ t.err = .truncatedHeader ∧ t.outLen = 0 ∧ t.outBuf = []) ∧
      ∀ (h0 h1 h2 h3 : Byte) (p : List Byte) (e : Word) (o : List Byte),
        c = h0 :: h1 :: h2 :: h3 :: p → e = headerValue h0 h1 h2 h3 →
        o = transformSeq s.keyRom.bytes p (e.toNat % s.keyLen) →
        (s.outCap.toNat < p.length → t.phase = .doneErr ∧ t.err = .capacityExceeded) ∧
        (p.length ≤ s.outCap.toNat → rcDigestOf s.prim o = e → t.phase = .doneOk ∧ t.outBuf = Memory.ofBytes o) ∧
        (p.length ≤ s.outCap.toNat → rcDigestOf s.prim o ≠ e →
          t.phase = .doneErr ∧ t.err = .checksumMismatch ∧ t.expected = e ∧ t.actual = rcDigestOf s.prim o)

/-- R84: under the named property of the checksum, changing one payload byte of a container that decodes well makes the job end in
CHECKSUM_MISMATCH with nothing to read. Without the property nothing of the kind is claimed. -/
def Obligations.TamperingIsCaughtIfTheChecksumCatchesIt : Prop :=
  ∀ (s t : State) (h0 h1 h2 h3 b b' : Byte) (front back : List Byte), s.ParamsOk → rcDetectsOneByte s.prim → b ≠ b' →
    runCommands (asmContainer (h0 :: h1 :: h2 :: h3 :: (front ++ b :: back))) s = .next t → t.phase = .doneOk →
    ∃ u, runCommands (asmContainer (h0 :: h1 :: h2 :: h3 :: (front ++ b' :: back))) s = .next u ∧
      u.phase = .doneErr ∧ u.err = .checksumMismatch ∧ u.outBuf = []

/-- R88: NOPs anywhere among any commands change nothing of how the commands come out. -/
def Obligations.NopsMayStandAnywhere : Prop :=
  ∀ (s : State) (is : List Instr),
    runCommands is s = runCommands (is.filter fun i => decide (i ≠ .nop)) s

/-- R96: however the host divides a command sequence, the end state is that of the whole sequence. (The spec marks R96 as
its own inference, [derived].) -/
def Obligations.ChunkingDoesNotMatter : Prop :=
  ∀ (s t : State) (front back : List Instr), runCommands front s = .next t →
    runCommands (front ++ back) s = runCommands back t

/-- R89, R95: a job does not depend on what ran before its START; only on the commands and on what the core is built with. -/
def Obligations.StartForgetsTheHistory : Prop :=
  ∀ (s₁ s₂ : State) (is : List Instr), s₁.keyRom = s₂.keyRom → s₁.outCap = s₂.outCap → s₁.rc = s₂.rc →
    runCommands (.start :: is) s₁ = runCommands (.start :: is) s₂

/-! ## Instances -/

/-- R52, R118, R121: a step of one instance, be it a command or a reset, is that core's own step and touches no other
instance. The form of a system is log entry 8's. -/
def Obligations.InstanceStepTouchesNoOther : Prop :=
  ∀ (y z : System) (k : Nat), System.stepAt k y = .next z →
    z.cores.length = y.cores.length ∧ (∀ j, j ≠ k → z.cores[j]? = y.cores[j]?) ∧
    ∃ c c', y.cores[k]? = some c ∧ step c = .next c' ∧ z.cores[k]? = some c'

/-- R52: the order in which two instances step is unobservable. The form of a system is log entry 8's. -/
def Obligations.InstanceOrderIsUnobservable : Prop :=
  ∀ (y y₁ y₂ : System) (j k : Nat), j ≠ k → System.stepAt j y = .next y₁ → System.stepAt k y₁ = .next y₂ →
    ∃ y₃, System.stepAt k y = .next y₃ ∧ System.stepAt j y₃ = .next y₂

/-- R118: after reset every instance is in IDLE and reads one key ROM, and no step of any instance ends that sharing. The
form of a system is log entry 8's. -/
def Obligations.InstancesShareOneKeyRom : Prop :=
  (System.reset.cores.length = Config.nInst ∧ System.reset.sharesRom State.reset.keyRom ∧
    ∀ c ∈ System.reset.cores, c.phase = .idle) ∧
  (∀ (y z : System) (rom : Memory) (k : Nat), y.sharesRom rom → System.stepAt k y = .next z → z.sharesRom rom)

/-! ## A job before its END -/

/-- R39's fifth line in BODY, with R46, R73 and R80: after START, a header and any payload that fits, the output buffer holds the
transformed payload, CK is the fold over it, and the cursor stands `len(P)` positions on from `EXPECTED mod L`. (The spec marks R39 and
R73 as its own inferences, [derived].) -/
def Obligations.BodyHoldsTheTransformedPayload : Prop :=
  ∀ (s : State) (h0 h1 h2 h3 : Byte) (p o : List Byte), s.ParamsOk → p.length ≤ s.outCap.toNat →
    o = transformSeq s.keyRom.bytes p ((headerValue h0 h1 h2 h3).toNat % s.keyLen) →
    ∃ t, runCommands (.start :: asmFeed (h0 :: h1 :: h2 :: h3 :: p)) s = .next t ∧
      t.phase = .body ∧ t.err = .none ∧ t.expected = headerValue h0 h1 h2 h3 ∧ t.hdrCnt = 4 ∧
      t.outBuf = Memory.ofBytes o ∧ t.outLen.toNat = p.length ∧ t.ck = rcFold s.prim s.prim.init o ∧
      t.cursor.toNat = ((headerValue h0 h1 h2 h3).toNat + p.length) % s.keyLen ∧ t.actual = 0
end

