-- ==== Sys2Proof/Laws/Checksum.lean ====
section
/-! SUPPORT. Folds over byte sequences, and that the test instantiation RC_ADLER32 (spec/42_rolling_checksum.md R85) tells two sequences apart
that differ in one byte, so that the named property of R84 is met by some checksum. -/

namespace Sys2Proof.Machine

theorem rcFold_append (rc : Rc) (s0 : Nat) (xs ys : List Byte) : rcFold rc s0 (xs ++ ys) = rcFold rc (rcFold rc s0 xs) ys := by
  simp [rcFold]

theorem rcFold_cons (rc : Rc) (s0 : Nat) (x : Byte) (xs : List Byte) :
    rcFold rc s0 (x :: xs) = rcFold rc (rc.update s0 x) xs := rfl

/-- The first component of the pair takes the byte modulo 65521. -/
theorem adlerUpdate_fst (ck : Nat) (x : Byte) : adlerUpdate ck x % 65536 = (ck % 65536 + x.toNat) % 65521 := by
  have h := Nat.mod_lt (ck % 65536 + x.toNat) (show 65521 > 0 by decide)
  simp only [adlerUpdate, adlerCode, adlerMod]
  omega

/-- The coded pair fits 32 bits. -/
theorem adlerUpdate_lt (ck : Nat) (x : Byte) : adlerUpdate ck x < 4294967296 := by
  have h₁ := Nat.mod_lt (ck % 65536 + x.toNat) (show 65521 > 0 by decide)
  have h₂ := Nat.mod_lt (ck / 65536 + (ck % 65536 + x.toNat) % 65521) (show 65521 > 0 by decide)
  simp only [adlerUpdate, adlerCode, adlerMod]
  omega

/-- Two states whose first components differ modulo 65521 stay apart under the same bytes. -/
theorem adler_fold_apart (bytes : List Byte) (p q : Nat) (h : p % 65536 % 65521 ≠ q % 65536 % 65521) :
    rcFold rcAdler32 p bytes % 65536 % 65521 ≠ rcFold rcAdler32 q bytes % 65536 % 65521 := by
  induction bytes generalizing p q with
  | nil => exact h
  | cons x t ih =>
    rw [rcFold_cons, rcFold_cons]
    refine ih _ _ ?_
    show adlerUpdate p x % 65536 % 65521 ≠ adlerUpdate q x % 65536 % 65521
    rw [adlerUpdate_fst, adlerUpdate_fst]
    omega

theorem adler_fold_lt (bytes : List Byte) (p : Nat) (h : p < 4294967296) : rcFold rcAdler32 p bytes < 4294967296 := by
  induction bytes generalizing p with
  | nil => exact h
  | cons x t ih => exact ih _ (adlerUpdate_lt p x)

/-- RC_ADLER32 has the property of R84. -/
theorem adler32_detects_one_byte : rcDetectsOneByte rcAdler32 := by
  intro front back x y hxy heq
  have hx : x.toNat ≠ y.toNat := fun h => hxy (BitVec.eq_of_toNat_eq h)
  have hxl := x.isLt
  have hyl := y.isLt
  have hfold : ∀ z : Byte, rcFold rcAdler32 rcAdler32.init (front ++ z :: back) =
      rcFold rcAdler32 (adlerUpdate (rcFold rcAdler32 rcAdler32.init front) z) back := by
    intro z
    rw [rcFold_append, rcFold_cons]
    rfl
  have hd : rcFold rcAdler32 rcAdler32.init (front ++ x :: back) = rcFold rcAdler32 rcAdler32.init (front ++ y :: back) := by
    have hl := fun z : Byte => adler_fold_lt (front ++ z :: back) rcAdler32.init (by decide)
    have hn : ∀ bytes, (rcDigestOf rcAdler32 bytes).toNat = rcFold rcAdler32 rcAdler32.init bytes % 4294967296 := fun _ => rfl
    have := congrArg BitVec.toNat heq
    rwa [hn, hn, Nat.mod_eq_of_lt (hl x), Nat.mod_eq_of_lt (hl y)] at this
  rw [hfold, hfold] at hd
  refine adler_fold_apart back (adlerUpdate _ x) (adlerUpdate _ y) ?_ (by rw [hd])
  rw [adlerUpdate_fst, adlerUpdate_fst]
  omega

end Sys2Proof.Machine
end

