-- ==== Sys2Proof/Laws/Memory.lean ====
section
/-! SUPPORT. The laws of a byte memory: read after write, the canonical form, and sequences laid out from address 0. -/

namespace Sys2Proof.Machine

@[simp] theorem Memory.read_nil (a : Nat) : Memory.read [] a = none := rfl

@[simp] theorem Memory.bytes_nil : Memory.bytes [] = [] := rfl

@[simp] theorem Memory.bytes_cons (c : Host.Cell) (m : Memory) : Memory.bytes (c :: m) = c.2 :: Memory.bytes m := rfl

@[simp] theorem Memory.bytes_length (m : Memory) : m.bytes.length = m.length := by simp [Memory.bytes]

/-! ## Read after write -/

theorem Memory.read_write_same (m : Memory) (a : Nat) (b : Byte) : (m.write a b).read a = some b := by
  induction m with
  | nil => simp [Memory.write, Memory.read]
  | cons c t ih =>
    obtain ⟨a', b'⟩ := c
    by_cases h₁ : a < a'
    · simp [Memory.write, Memory.read, h₁]
    · by_cases h₂ : a = a'
      · simp [Memory.write, Memory.read, h₂]
      · simp [Memory.write, Memory.read, h₁, h₂, Ne.symm h₂, ih]

theorem Memory.read_write_other (m : Memory) {a x : Nat} (b : Byte) (h : x ≠ a) : (m.write a b).read x = m.read x := by
  induction m with
  | nil => simp [Memory.write, Memory.read, Ne.symm h, Memory.unlisted]
  | cons c t ih =>
    obtain ⟨a', b'⟩ := c
    by_cases h₁ : a < a'
    · simp [Memory.write, Memory.read, h₁, Ne.symm h]
    · by_cases h₂ : a = a'
      · subst h₂; simp [Memory.write, Memory.read, Ne.symm h]
      · simp [Memory.write, Memory.read, h₁, h₂, ih]

/-! ## The canonical form -/

theorem Memory.wf_nil : Memory.wf [] := List.Pairwise.nil

theorem Memory.mem_keys_write {m : Memory} {a x : Nat} {b : Byte} (h : x ∈ (m.write a b).map (·.1)) :
    x = a ∨ x ∈ m.map (·.1) := by
  induction m with
  | nil => simpa [Memory.write] using h
  | cons c t ih =>
    obtain ⟨a', b'⟩ := c
    simp only [Memory.write] at h
    split at h
    · simpa using h
    · split at h
      · rename_i h₂; subst h₂
        simp only [List.map_cons, List.mem_cons] at h ⊢
        tauto
      · simp only [List.map_cons, List.mem_cons] at h ⊢
        rcases h with h | h
        · exact .inr (.inl h)
        · rcases ih h with h | h
          · exact .inl h
          · exact .inr (.inr h)

/-- Every store keeps the canonical form. -/
theorem Memory.write_keeps_wf {m : Memory} (h : m.wf) (a : Nat) (b : Byte) : (m.write a b).wf := by
  induction m with
  | nil => simp [Memory.write, Memory.wf]
  | cons c t ih =>
    obtain ⟨a', b'⟩ := c
    simp only [Memory.wf, List.map_cons, List.pairwise_cons] at h
    simp only [Memory.write]
    split
    · rename_i h₁
      simp only [Memory.wf, List.map_cons, List.pairwise_cons, List.mem_cons]
      refine ⟨?_, h⟩
      rintro x (rfl | hx)
      · exact h₁
      · exact h₁.trans (h.1 x hx)
    · split
      · rename_i h₂; subst h₂
        simpa [Memory.wf] using h
      · rename_i h₁ h₂
        simp only [Memory.wf, List.map_cons, List.pairwise_cons]
        refine ⟨fun x hx => ?_, ih h.2⟩
        rcases Memory.mem_keys_write hx with rfl | hx
        · omega
        · exact h.1 x hx

/-! ## Sequences -/

@[simp] theorem Memory.place_length (base : Nat) (bs : List Byte) : (Memory.place base bs).length = bs.length := by
  induction bs generalizing base with
  | nil => rfl
  | cons b t ih => simp [Memory.place, ih]

@[simp] theorem Memory.place_bytes (base : Nat) (bs : List Byte) : (Memory.place base bs).bytes = bs := by
  induction bs generalizing base with
  | nil => rfl
  | cons b t ih => simp [Memory.place, ih]

theorem Memory.place_read (base : Nat) (bs : List Byte) (i : Nat) : (Memory.place base bs).read (base + i) = bs[i]? := by
  induction bs generalizing base i with
  | nil => rfl
  | cons b t ih =>
    cases i with
    | zero => simp [Memory.place, Memory.read]
    | succ n =>
      have h := ih (base + 1) n
      rw [show base + 1 + n = base + (n + 1) by omega] at h
      simp [Memory.place, Memory.read, h]

/-- A byte stored right behind a sequence makes it one longer. -/
theorem Memory.place_write_end (base : Nat) (bs : List Byte) (b : Byte) :
    (Memory.place base bs).write (base + bs.length) b = Memory.place base (bs ++ [b]) := by
  induction bs generalizing base with
  | nil => rfl
  | cons x t ih =>
    have h := ih (base + 1)
    rw [show base + 1 + t.length = base + (t.length + 1) by omega] at h
    simp [Memory.place, Memory.write, h]

theorem Memory.place_keys_ge (base : Nat) (bs : List Byte) : ∀ x ∈ (Memory.place base bs).map (·.1), base ≤ x := by
  induction bs generalizing base with
  | nil => simp [Memory.place]
  | cons b t ih =>
    intro x hx
    simp only [Memory.place, List.map_cons, List.mem_cons] at hx
    rcases hx with rfl | hx
    · exact Nat.le_refl _
    · exact (Nat.le_succ base).trans (ih (base + 1) x hx)

theorem Memory.place_wf (base : Nat) (bs : List Byte) : (Memory.place base bs).wf := by
  induction bs generalizing base with
  | nil => exact Memory.wf_nil
  | cons b t ih =>
    simp only [Memory.wf, Memory.place, List.map_cons, List.pairwise_cons]
    exact ⟨fun x hx => Memory.place_keys_ge (base + 1) t x hx, ih (base + 1)⟩

@[simp] theorem Memory.ofBytes_nil : Memory.ofBytes [] = [] := rfl

@[simp] theorem Memory.ofBytes_length (bs : List Byte) : (Memory.ofBytes bs).length = bs.length :=
  Memory.place_length 0 bs

@[simp] theorem Memory.ofBytes_bytes (bs : List Byte) : (Memory.ofBytes bs).bytes = bs := Memory.place_bytes 0 bs

theorem Memory.ofBytes_wf (bs : List Byte) : (Memory.ofBytes bs).wf := Memory.place_wf 0 bs

@[simp] theorem Memory.ofBytes_dense (bs : List Byte) : (Memory.ofBytes bs).dense := by simp [Memory.dense]

theorem Memory.ofBytes_read (bs : List Byte) (i : Nat) : (Memory.ofBytes bs).read i = bs[i]? := by
  simpa [Memory.ofBytes] using Memory.place_read 0 bs i

theorem Memory.ofBytes_write_end (bs : List Byte) (b : Byte) :
    (Memory.ofBytes bs).write bs.length b = Memory.ofBytes (bs ++ [b]) := by
  simpa [Memory.ofBytes] using Memory.place_write_end 0 bs b

/-- A memory that is a sequence is in the canonical form. -/
theorem Memory.dense.wf {m : Memory} (h : m.dense) : m.wf := by
  have h' : m = Memory.ofBytes m.bytes := h
  rw [h']; exact Memory.ofBytes_wf _

@[simp] theorem Memory.dense_nil : Memory.dense [] := rfl

theorem Memory.dense.read {m : Memory} (h : m.dense) (i : Nat) : m.read i = m.bytes[i]? := by
  have hr := Memory.ofBytes_read m.bytes i
  rwa [show Memory.ofBytes m.bytes = m from h.symm] at hr

theorem Memory.dense.write_end {m : Memory} (h : m.dense) (b : Byte) :
    m.write m.length b = Memory.ofBytes (m.bytes ++ [b]) := by
  have hw := Memory.ofBytes_write_end m.bytes b
  rwa [Memory.bytes_length, show Memory.ofBytes m.bytes = m from h.symm] at hw

end Sys2Proof.Machine
end

