-- ==== Sys2Proof/Laws/Cipher.lean ====
section
/-! SUPPORT. Key reads on a key table laid out from address 0, and when a transform has a result. -/

namespace Sys2Proof.Machine

theorem keyRead_ofBytes {key : List Byte} {i : Nat} (h : i < key.length) :
    keyRead (Memory.ofBytes key) i = some (key.getD i 0) := by
  simp [keyRead, h, Memory.ofBytes_read, List.getD_eq_getElem?_getD]

theorem keyRead_out_of_range {key : Memory} {i : Nat} (h : key.length ≤ i) : keyRead key i = none := by
  simp [keyRead, Nat.not_lt.mpr h]

theorem keyRead_dense {key : Memory} (hd : key.dense) {i : Nat} (h : i < key.length) :
    keyRead key i = some (key.bytes.getD i 0) := by
  have := keyRead_ofBytes (key := key.bytes) (i := i) (by simpa using h)
  rwa [show Memory.ofBytes key.bytes = key from hd.symm] at this

/-- A transform has a result exactly where the key has a byte, and the result is XOR, reversal and the next cursor. -/
theorem transform_eq_some {key : Memory} {b out : Byte} {c next : Nat} :
    transform key b c = some (out, next) ↔
      ∃ k, keyRead key c = some k ∧ out = rev8 (b ^^^ k) ∧ next = nextCursor key.length c := by
  unfold transform
  split
  · rename_i k hk
    simp only [hk, Option.some.injEq, Prod.mk.injEq, exists_eq_left']
    exact ⟨fun h => ⟨h.1.symm, h.2.symm⟩, fun h => ⟨h.1.symm, h.2.symm⟩⟩
  · rename_i hk
    simp [hk]

theorem nextCursor_lt {len : Nat} (h : 1 ≤ len) (c : Nat) : nextCursor len c < len := Nat.mod_lt _ h

end Sys2Proof.Machine
end

