-- ==== Sys2Proof/Laws/Decode.lean ====
section
/-! SUPPORT. The two fields of a word put together from them, and the table word of the host's numbering. -/

namespace Sys2Proof

@[simp] theorem opField_cmdWord (op data : Byte) : opField (cmdWord op data) = op := by
  simp only [opField, cmdWord]
  exact BitVec.extractLsb'_append_eq_left

@[simp] theorem dataField_cmdWord (op data : Byte) : dataField (cmdWord op data) = data := by
  simp only [dataField, cmdWord]
  exact BitVec.extractLsb'_append_eq_right

/-- A word is its OP and its DATA. -/
theorem cmdWord_fields (w : CmdWord) : cmdWord (opField w) (dataField w) = w := by
  simp only [cmdWord, opField, dataField]
  ext i hi
  simp only [BitVec.getElem_append, BitVec.getElem_extractLsb']
  split
  · simp [BitVec.getLsbD_eq_getElem hi]
  · rename_i h
    rw [show 8 + (i - 8) = i by omega, BitVec.getLsbD_eq_getElem hi]

/-- All 16 bits of a table word reach the decoder. -/
theorem tableWord_toNat (w : CmdWord) : tableWord 16 w.toNat = w := by
  simp [tableWord, Nat.mod_eq_of_lt w.isLt]

end Sys2Proof
end

