-- ==== Sys2Proof/Laws/State.lean ====
section
/-! SUPPORT. One lemma per field per update of State, each true by `rfl`, so that no proof unfolds a record update; and what the
views of the state (`prim`, `keyLen`) are after each update. -/

namespace Sys2Proof.Machine

/-! ## fresh -/

@[simp] theorem State.fresh_phase (s : State) (ph : Phase) : (s.fresh ph).phase = ph := rfl
@[simp] theorem State.fresh_err (s : State) (ph : Phase) : (s.fresh ph).err = .none := rfl
@[simp] theorem State.fresh_expected (s : State) (ph : Phase) : (s.fresh ph).expected = 0 := rfl
@[simp] theorem State.fresh_hdrCnt (s : State) (ph : Phase) : (s.fresh ph).hdrCnt = 0 := rfl
@[simp] theorem State.fresh_cursor (s : State) (ph : Phase) : (s.fresh ph).cursor = 0 := rfl
@[simp] theorem State.fresh_ck (s : State) (ph : Phase) : (s.fresh ph).ck = s.prim.init := rfl
@[simp] theorem State.fresh_actual (s : State) (ph : Phase) : (s.fresh ph).actual = 0 := rfl
@[simp] theorem State.fresh_outLen (s : State) (ph : Phase) : (s.fresh ph).outLen = 0 := rfl
@[simp] theorem State.fresh_outBuf (s : State) (ph : Phase) : (s.fresh ph).outBuf = [] := rfl
@[simp] theorem State.fresh_keyRom (s : State) (ph : Phase) : (s.fresh ph).keyRom = s.keyRom := rfl
@[simp] theorem State.fresh_outCap (s : State) (ph : Phase) : (s.fresh ph).outCap = s.outCap := rfl
@[simp] theorem State.fresh_rc (s : State) (ph : Phase) : (s.fresh ph).rc = s.rc := rfl
@[simp] theorem State.fresh_host (s : State) (ph : Phase) : (s.fresh ph).host = s.host := rfl
@[simp] theorem State.fresh_prim (s : State) (ph : Phase) : (s.fresh ph).prim = s.prim := rfl
@[simp] theorem State.fresh_keyLen (s : State) (ph : Phase) : (s.fresh ph).keyLen = s.keyLen := rfl

/-! ## applyReset -/

@[simp] theorem State.applyReset_phase (s : State) : s.applyReset.phase = .idle := rfl
@[simp] theorem State.applyReset_err (s : State) : s.applyReset.err = .none := rfl
@[simp] theorem State.applyReset_expected (s : State) : s.applyReset.expected = 0 := rfl
@[simp] theorem State.applyReset_hdrCnt (s : State) : s.applyReset.hdrCnt = 0 := rfl
@[simp] theorem State.applyReset_cursor (s : State) : s.applyReset.cursor = 0 := rfl
@[simp] theorem State.applyReset_ck (s : State) : s.applyReset.ck = s.prim.init := rfl
@[simp] theorem State.applyReset_actual (s : State) : s.applyReset.actual = 0 := rfl
@[simp] theorem State.applyReset_outLen (s : State) : s.applyReset.outLen = 0 := rfl
@[simp] theorem State.applyReset_outBuf (s : State) : s.applyReset.outBuf = [] := rfl
@[simp] theorem State.applyReset_keyRom (s : State) : s.applyReset.keyRom = s.keyRom := rfl
@[simp] theorem State.applyReset_outCap (s : State) : s.applyReset.outCap = s.outCap := rfl
@[simp] theorem State.applyReset_rc (s : State) : s.applyReset.rc = s.rc := rfl
@[simp] theorem State.applyReset_host (s : State) : s.applyReset.host = s.host := rfl
@[simp] theorem State.applyReset_prim (s : State) : s.applyReset.prim = s.prim := rfl
@[simp] theorem State.applyReset_keyLen (s : State) : s.applyReset.keyLen = s.keyLen := rfl

/-! ## openJob -/

@[simp] theorem State.openJob_phase (s : State) : s.openJob.phase = .header := rfl
@[simp] theorem State.openJob_err (s : State) : s.openJob.err = .none := rfl
@[simp] theorem State.openJob_expected (s : State) : s.openJob.expected = 0 := rfl
@[simp] theorem State.openJob_hdrCnt (s : State) : s.openJob.hdrCnt = 0 := rfl
@[simp] theorem State.openJob_cursor (s : State) : s.openJob.cursor = 0 := rfl
@[simp] theorem State.openJob_ck (s : State) : s.openJob.ck = s.prim.init := rfl
@[simp] theorem State.openJob_actual (s : State) : s.openJob.actual = 0 := rfl
@[simp] theorem State.openJob_outLen (s : State) : s.openJob.outLen = 0 := rfl
@[simp] theorem State.openJob_outBuf (s : State) : s.openJob.outBuf = [] := rfl
@[simp] theorem State.openJob_keyRom (s : State) : s.openJob.keyRom = s.keyRom := rfl
@[simp] theorem State.openJob_outCap (s : State) : s.openJob.outCap = s.outCap := rfl
@[simp] theorem State.openJob_rc (s : State) : s.openJob.rc = s.rc := rfl
@[simp] theorem State.openJob_host (s : State) : s.openJob.host = s.host := rfl
@[simp] theorem State.openJob_prim (s : State) : s.openJob.prim = s.prim := rfl
@[simp] theorem State.openJob_keyLen (s : State) : s.openJob.keyLen = s.keyLen := rfl

/-! ## outClear -/

@[simp] theorem State.outClear_phase (s : State) : s.outClear.phase = s.phase := rfl
@[simp] theorem State.outClear_err (s : State) : s.outClear.err = s.err := rfl
@[simp] theorem State.outClear_expected (s : State) : s.outClear.expected = s.expected := rfl
@[simp] theorem State.outClear_hdrCnt (s : State) : s.outClear.hdrCnt = s.hdrCnt := rfl
@[simp] theorem State.outClear_cursor (s : State) : s.outClear.cursor = s.cursor := rfl
@[simp] theorem State.outClear_ck (s : State) : s.outClear.ck = s.ck := rfl
@[simp] theorem State.outClear_actual (s : State) : s.outClear.actual = s.actual := rfl
@[simp] theorem State.outClear_outLen (s : State) : s.outClear.outLen = 0 := rfl
@[simp] theorem State.outClear_outBuf (s : State) : s.outClear.outBuf = [] := rfl
@[simp] theorem State.outClear_keyRom (s : State) : s.outClear.keyRom = s.keyRom := rfl
@[simp] theorem State.outClear_outCap (s : State) : s.outClear.outCap = s.outCap := rfl
@[simp] theorem State.outClear_rc (s : State) : s.outClear.rc = s.rc := rfl
@[simp] theorem State.outClear_host (s : State) : s.outClear.host = s.host := rfl
@[simp] theorem State.outClear_prim (s : State) : s.outClear.prim = s.prim := rfl
@[simp] theorem State.outClear_keyLen (s : State) : s.outClear.keyLen = s.keyLen := rfl

/-! ## raise -/

@[simp] theorem State.raise_phase (s : State) (e : ErrKind) : (s.raise e).phase = .doneErr := rfl
@[simp] theorem State.raise_err (s : State) (e : ErrKind) : (s.raise e).err = e := rfl
@[simp] theorem State.raise_expected (s : State) (e : ErrKind) : (s.raise e).expected = s.expected := rfl
@[simp] theorem State.raise_hdrCnt (s : State) (e : ErrKind) : (s.raise e).hdrCnt = s.hdrCnt := rfl
@[simp] theorem State.raise_cursor (s : State) (e : ErrKind) : (s.raise e).cursor = s.cursor := rfl
@[simp] theorem State.raise_ck (s : State) (e : ErrKind) : (s.raise e).ck = s.ck := rfl
@[simp] theorem State.raise_actual (s : State) (e : ErrKind) : (s.raise e).actual = s.actual := rfl
@[simp] theorem State.raise_outLen (s : State) (e : ErrKind) : (s.raise e).outLen = 0 := rfl
@[simp] theorem State.raise_outBuf (s : State) (e : ErrKind) : (s.raise e).outBuf = [] := rfl
@[simp] theorem State.raise_keyRom (s : State) (e : ErrKind) : (s.raise e).keyRom = s.keyRom := rfl
@[simp] theorem State.raise_outCap (s : State) (e : ErrKind) : (s.raise e).outCap = s.outCap := rfl
@[simp] theorem State.raise_rc (s : State) (e : ErrKind) : (s.raise e).rc = s.rc := rfl
@[simp] theorem State.raise_host (s : State) (e : ErrKind) : (s.raise e).host = s.host := rfl
@[simp] theorem State.raise_prim (s : State) (e : ErrKind) : (s.raise e).prim = s.prim := rfl
@[simp] theorem State.raise_keyLen (s : State) (e : ErrKind) : (s.raise e).keyLen = s.keyLen := rfl

/-! ## recordHeaderByte -/

@[simp] theorem State.recordHeaderByte_phase (s : State) (b : Byte) : (s.recordHeaderByte b).phase = s.phase := rfl
@[simp] theorem State.recordHeaderByte_err (s : State) (b : Byte) : (s.recordHeaderByte b).err = s.err := rfl
@[simp] theorem State.recordHeaderByte_expected (s : State) (b : Byte) : (s.recordHeaderByte b).expected = setHeaderByte s.expected s.hdrCnt.toNat b := rfl
@[simp] theorem State.recordHeaderByte_hdrCnt (s : State) (b : Byte) : (s.recordHeaderByte b).hdrCnt = s.hdrCnt + 1 := rfl
@[simp] theorem State.recordHeaderByte_cursor (s : State) (b : Byte) : (s.recordHeaderByte b).cursor = s.cursor := rfl
@[simp] theorem State.recordHeaderByte_ck (s : State) (b : Byte) : (s.recordHeaderByte b).ck = s.ck := rfl
@[simp] theorem State.recordHeaderByte_actual (s : State) (b : Byte) : (s.recordHeaderByte b).actual = s.actual := rfl
@[simp] theorem State.recordHeaderByte_outLen (s : State) (b : Byte) : (s.recordHeaderByte b).outLen = s.outLen := rfl
@[simp] theorem State.recordHeaderByte_outBuf (s : State) (b : Byte) : (s.recordHeaderByte b).outBuf = s.outBuf := rfl
@[simp] theorem State.recordHeaderByte_keyRom (s : State) (b : Byte) : (s.recordHeaderByte b).keyRom = s.keyRom := rfl
@[simp] theorem State.recordHeaderByte_outCap (s : State) (b : Byte) : (s.recordHeaderByte b).outCap = s.outCap := rfl
@[simp] theorem State.recordHeaderByte_rc (s : State) (b : Byte) : (s.recordHeaderByte b).rc = s.rc := rfl
@[simp] theorem State.recordHeaderByte_host (s : State) (b : Byte) : (s.recordHeaderByte b).host = s.host := rfl
@[simp] theorem State.recordHeaderByte_prim (s : State) (b : Byte) : (s.recordHeaderByte b).prim = s.prim := rfl
@[simp] theorem State.recordHeaderByte_keyLen (s : State) (b : Byte) : (s.recordHeaderByte b).keyLen = s.keyLen := rfl

/-! ## beginBody -/

@[simp] theorem State.beginBody_phase (s : State) (c : Word) : (s.beginBody c).phase = .body := rfl
@[simp] theorem State.beginBody_err (s : State) (c : Word) : (s.beginBody c).err = s.err := rfl
@[simp] theorem State.beginBody_expected (s : State) (c : Word) : (s.beginBody c).expected = s.expected := rfl
@[simp] theorem State.beginBody_hdrCnt (s : State) (c : Word) : (s.beginBody c).hdrCnt = s.hdrCnt := rfl
@[simp] theorem State.beginBody_cursor (s : State) (c : Word) : (s.beginBody c).cursor = c := rfl
@[simp] theorem State.beginBody_ck (s : State) (c : Word) : (s.beginBody c).ck = s.prim.init := rfl
@[simp] theorem State.beginBody_actual (s : State) (c : Word) : (s.beginBody c).actual = s.actual := rfl
@[simp] theorem State.beginBody_outLen (s : State) (c : Word) : (s.beginBody c).outLen = s.outLen := rfl
@[simp] theorem State.beginBody_outBuf (s : State) (c : Word) : (s.beginBody c).outBuf = s.outBuf := rfl
@[simp] theorem State.beginBody_keyRom (s : State) (c : Word) : (s.beginBody c).keyRom = s.keyRom := rfl
@[simp] theorem State.beginBody_outCap (s : State) (c : Word) : (s.beginBody c).outCap = s.outCap := rfl
@[simp] theorem State.beginBody_rc (s : State) (c : Word) : (s.beginBody c).rc = s.rc := rfl
@[simp] theorem State.beginBody_host (s : State) (c : Word) : (s.beginBody c).host = s.host := rfl
@[simp] theorem State.beginBody_prim (s : State) (c : Word) : (s.beginBody c).prim = s.prim := rfl
@[simp] theorem State.beginBody_keyLen (s : State) (c : Word) : (s.beginBody c).keyLen = s.keyLen := rfl

/-! ## appendByte -/

@[simp] theorem State.appendByte_phase (s : State) (b : Byte) : (s.appendByte b).phase = s.phase := rfl
@[simp] theorem State.appendByte_err (s : State) (b : Byte) : (s.appendByte b).err = s.err := rfl
@[simp] theorem State.appendByte_expected (s : State) (b : Byte) : (s.appendByte b).expected = s.expected := rfl
@[simp] theorem State.appendByte_hdrCnt (s : State) (b : Byte) : (s.appendByte b).hdrCnt = s.hdrCnt := rfl
@[simp] theorem State.appendByte_cursor (s : State) (b : Byte) : (s.appendByte b).cursor = s.cursor := rfl
@[simp] theorem State.appendByte_ck (s : State) (b : Byte) : (s.appendByte b).ck = s.ck := rfl
@[simp] theorem State.appendByte_actual (s : State) (b : Byte) : (s.appendByte b).actual = s.actual := rfl
@[simp] theorem State.appendByte_outLen (s : State) (b : Byte) : (s.appendByte b).outLen = s.outLen + 1 := rfl
@[simp] theorem State.appendByte_outBuf (s : State) (b : Byte) : (s.appendByte b).outBuf = s.outBuf.write s.outAppendAddr b := rfl
@[simp] theorem State.appendByte_keyRom (s : State) (b : Byte) : (s.appendByte b).keyRom = s.keyRom := rfl
@[simp] theorem State.appendByte_outCap (s : State) (b : Byte) : (s.appendByte b).outCap = s.outCap := rfl
@[simp] theorem State.appendByte_rc (s : State) (b : Byte) : (s.appendByte b).rc = s.rc := rfl
@[simp] theorem State.appendByte_host (s : State) (b : Byte) : (s.appendByte b).host = s.host := rfl
@[simp] theorem State.appendByte_prim (s : State) (b : Byte) : (s.appendByte b).prim = s.prim := rfl
@[simp] theorem State.appendByte_keyLen (s : State) (b : Byte) : (s.appendByte b).keyLen = s.keyLen := rfl

/-! ## advance -/

@[simp] theorem State.advance_phase (s : State) (out : Byte) (next : Nat) : (s.advance out next).phase = s.phase := rfl
@[simp] theorem State.advance_err (s : State) (out : Byte) (next : Nat) : (s.advance out next).err = s.err := rfl
@[simp] theorem State.advance_expected (s : State) (out : Byte) (next : Nat) : (s.advance out next).expected = s.expected := rfl
@[simp] theorem State.advance_hdrCnt (s : State) (out : Byte) (next : Nat) : (s.advance out next).hdrCnt = s.hdrCnt := rfl
@[simp] theorem State.advance_cursor (s : State) (out : Byte) (next : Nat) : (s.advance out next).cursor = BitVec.ofNat 32 next := rfl
@[simp] theorem State.advance_ck (s : State) (out : Byte) (next : Nat) : (s.advance out next).ck = s.prim.update s.ck out := rfl
@[simp] theorem State.advance_actual (s : State) (out : Byte) (next : Nat) : (s.advance out next).actual = s.actual := rfl
@[simp] theorem State.advance_outLen (s : State) (out : Byte) (next : Nat) : (s.advance out next).outLen = s.outLen := rfl
@[simp] theorem State.advance_outBuf (s : State) (out : Byte) (next : Nat) : (s.advance out next).outBuf = s.outBuf := rfl
@[simp] theorem State.advance_keyRom (s : State) (out : Byte) (next : Nat) : (s.advance out next).keyRom = s.keyRom := rfl
@[simp] theorem State.advance_outCap (s : State) (out : Byte) (next : Nat) : (s.advance out next).outCap = s.outCap := rfl
@[simp] theorem State.advance_rc (s : State) (out : Byte) (next : Nat) : (s.advance out next).rc = s.rc := rfl
@[simp] theorem State.advance_host (s : State) (out : Byte) (next : Nat) : (s.advance out next).host = s.host := rfl
@[simp] theorem State.advance_prim (s : State) (out : Byte) (next : Nat) : (s.advance out next).prim = s.prim := rfl
@[simp] theorem State.advance_keyLen (s : State) (out : Byte) (next : Nat) : (s.advance out next).keyLen = s.keyLen := rfl

/-! ## captureDigest -/

@[simp] theorem State.captureDigest_phase (s : State) : s.captureDigest.phase = s.phase := rfl
@[simp] theorem State.captureDigest_err (s : State) : s.captureDigest.err = s.err := rfl
@[simp] theorem State.captureDigest_expected (s : State) : s.captureDigest.expected = s.expected := rfl
@[simp] theorem State.captureDigest_hdrCnt (s : State) : s.captureDigest.hdrCnt = s.hdrCnt := rfl
@[simp] theorem State.captureDigest_cursor (s : State) : s.captureDigest.cursor = s.cursor := rfl
@[simp] theorem State.captureDigest_ck (s : State) : s.captureDigest.ck = s.ck := rfl
@[simp] theorem State.captureDigest_actual (s : State) : s.captureDigest.actual = s.digest := rfl
@[simp] theorem State.captureDigest_outLen (s : State) : s.captureDigest.outLen = s.outLen := rfl
@[simp] theorem State.captureDigest_outBuf (s : State) : s.captureDigest.outBuf = s.outBuf := rfl
@[simp] theorem State.captureDigest_keyRom (s : State) : s.captureDigest.keyRom = s.keyRom := rfl
@[simp] theorem State.captureDigest_outCap (s : State) : s.captureDigest.outCap = s.outCap := rfl
@[simp] theorem State.captureDigest_rc (s : State) : s.captureDigest.rc = s.rc := rfl
@[simp] theorem State.captureDigest_host (s : State) : s.captureDigest.host = s.host := rfl
@[simp] theorem State.captureDigest_prim (s : State) : s.captureDigest.prim = s.prim := rfl
@[simp] theorem State.captureDigest_keyLen (s : State) : s.captureDigest.keyLen = s.keyLen := rfl

/-! ## release -/

@[simp] theorem State.release_phase (s : State) : s.release.phase = .doneOk := rfl
@[simp] theorem State.release_err (s : State) : s.release.err = s.err := rfl
@[simp] theorem State.release_expected (s : State) : s.release.expected = s.expected := rfl
@[simp] theorem State.release_hdrCnt (s : State) : s.release.hdrCnt = s.hdrCnt := rfl
@[simp] theorem State.release_cursor (s : State) : s.release.cursor = s.cursor := rfl
@[simp] theorem State.release_ck (s : State) : s.release.ck = s.ck := rfl
@[simp] theorem State.release_actual (s : State) : s.release.actual = s.actual := rfl
@[simp] theorem State.release_outLen (s : State) : s.release.outLen = s.outLen := rfl
@[simp] theorem State.release_outBuf (s : State) : s.release.outBuf = s.outBuf := rfl
@[simp] theorem State.release_keyRom (s : State) : s.release.keyRom = s.keyRom := rfl
@[simp] theorem State.release_outCap (s : State) : s.release.outCap = s.outCap := rfl
@[simp] theorem State.release_rc (s : State) : s.release.rc = s.rc := rfl
@[simp] theorem State.release_host (s : State) : s.release.host = s.host := rfl
@[simp] theorem State.release_prim (s : State) : s.release.prim = s.prim := rfl
@[simp] theorem State.release_keyLen (s : State) : s.release.keyLen = s.keyLen := rfl

/-! ## withHost -/

@[simp] theorem State.withHost_phase (s : State) (inputs : List PortInput) : (s.withHost inputs).phase = s.phase := rfl
@[simp] theorem State.withHost_err (s : State) (inputs : List PortInput) : (s.withHost inputs).err = s.err := rfl
@[simp] theorem State.withHost_expected (s : State) (inputs : List PortInput) : (s.withHost inputs).expected = s.expected := rfl
@[simp] theorem State.withHost_hdrCnt (s : State) (inputs : List PortInput) : (s.withHost inputs).hdrCnt = s.hdrCnt := rfl
@[simp] theorem State.withHost_cursor (s : State) (inputs : List PortInput) : (s.withHost inputs).cursor = s.cursor := rfl
@[simp] theorem State.withHost_ck (s : State) (inputs : List PortInput) : (s.withHost inputs).ck = s.ck := rfl
@[simp] theorem State.withHost_actual (s : State) (inputs : List PortInput) : (s.withHost inputs).actual = s.actual := rfl
@[simp] theorem State.withHost_outLen (s : State) (inputs : List PortInput) : (s.withHost inputs).outLen = s.outLen := rfl
@[simp] theorem State.withHost_outBuf (s : State) (inputs : List PortInput) : (s.withHost inputs).outBuf = s.outBuf := rfl
@[simp] theorem State.withHost_keyRom (s : State) (inputs : List PortInput) : (s.withHost inputs).keyRom = s.keyRom := rfl
@[simp] theorem State.withHost_outCap (s : State) (inputs : List PortInput) : (s.withHost inputs).outCap = s.outCap := rfl
@[simp] theorem State.withHost_rc (s : State) (inputs : List PortInput) : (s.withHost inputs).rc = s.rc := rfl
@[simp] theorem State.withHost_host (s : State) (inputs : List PortInput) : (s.withHost inputs).host = inputs := rfl
@[simp] theorem State.withHost_prim (s : State) (inputs : List PortInput) : (s.withHost inputs).prim = s.prim := rfl
@[simp] theorem State.withHost_keyLen (s : State) (inputs : List PortInput) : (s.withHost inputs).keyLen = s.keyLen := rfl

end Sys2Proof.Machine
end

