-- ==== Sys2Proof/Laws/Ops.lean ====
section
/-! SUPPORT. For each shared operation, once, everything it can do. -/

namespace Sys2Proof.Machine

/-- `protocol_error()` always answers a next state: the same one in DONE_ERR, the error entry elsewhere. -/
theorem protocolError_eq (s : State) :
    protocolError s = .next (if s.phase = .doneErr then s else s.raise .protocolError) := by
  unfold protocolError
  split <;> simp_all

/-- `setHeaderByte` replaces the eight bits `[8k+7 : 8k]` and no other. -/
theorem setHeaderByte_getLsbD (e : Word) (k : Nat) (b : Byte) (i : Nat) (hi : i < 32) :
    (setHeaderByte e k b).getLsbD i = if 8 * k ≤ i ∧ i < 8 * k + 8 then b.getLsbD (i - 8 * k) else e.getLsbD i := by
  have ones : ∀ j, (0xFF : Word).getLsbD j = decide (j < 8) := by
    intro j
    by_cases hj : j < 32
    · revert j; decide
    · rw [BitVec.getLsbD_of_ge _ _ (by omega)]; simp; omega
  simp only [setHeaderByte, BitVec.getLsbD_or, BitVec.getLsbD_and, BitVec.getLsbD_not, BitVec.getLsbD_shiftLeft, ones, hi,
    BitVec.getLsbD_setWidth]
  by_cases h₁ : i < 8 * k
  · simp [h₁, show ¬ (8 * k ≤ i) by omega]
  · by_cases h₂ : i < 8 * k + 8
    · simp [h₁, h₂, show i - 8 * k < 8 by omega, show 8 * k ≤ i by omega, show i - 8 * k < 32 by omega]
    · simp [h₁, h₂, show ¬ (i - 8 * k < 8) by omega, BitVec.getLsbD_of_ge b _ (show 8 ≤ i - 8 * k by omega)]

/-- A header byte that is not the fourth is recorded and nothing else happens. -/
theorem pushHeader_early {s : State} (b : Byte) (h : s.hdrCnt.toNat < 3) : pushHeader b s = .next (s.recordHeaderByte b) := by
  unfold pushHeader
  rw [if_neg (by omega), if_neg (by omega)]

theorem startCursor_of_bounds {len : Nat} (e : Word) (h₁ : 1 ≤ len) (h₂ : len ≤ 4294967295) :
    startCursor len e = some (BitVec.ofNat 32 (e.toNat % len)) := by
  simp [startCursor, h₁, h₂]

theorem startCursor_eq_some {len : Nat} {e c : Word} (h : startCursor len e = some c) :
    1 ≤ len ∧ len ≤ 4294967295 ∧ c.toNat = e.toNat % len := by
  unfold startCursor at h
  split at h
  · rename_i hl
    obtain rfl := Option.some.inj h
    refine ⟨hl.1, hl.2, ?_⟩
    have := Nat.mod_lt e.toNat hl.1
    rw [BitVec.toNat_ofNat, Nat.mod_eq_of_lt (by omega)]
  · cases h

/-- The fourth header byte begins the body. -/
theorem pushHeader_fourth {s : State} (b : Byte) {c : Word} (h : s.hdrCnt.toNat = 3)
    (hc : startCursor s.keyLen (s.recordHeaderByte b).expected = some c) :
    pushHeader b s = .next ((s.recordHeaderByte b).beginBody c) := by
  unfold pushHeader
  rw [if_neg (by omega), if_pos h, hc]

/-- All that PUSH can do in HEADER when it goes on. -/
theorem pushHeader_next {b : Byte} {s t : State} (h : pushHeader b s = .next t) :
    (s.hdrCnt.toNat < 3 ∧ t = s.recordHeaderByte b) ∨
    (s.hdrCnt.toNat = 3 ∧ ∃ c, startCursor s.keyLen (s.recordHeaderByte b).expected = some c ∧
      t = (s.recordHeaderByte b).beginBody c) := by
  unfold pushHeader at h
  split at h
  · cases h
  · split at h
    · rename_i h₃
      split at h
      · rename_i c hc
        exact .inr ⟨h₃, c, hc, by injection h with h; exact h.symm⟩
      · cases h
    · exact .inl ⟨by omega, by injection h with h; exact h.symm⟩

theorem outAppend_eq_some {b : Byte} {s t : State} (h : s.outAppend b = some t) :
    s.outLen < s.outCap ∧ t = s.appendByte b := by
  unfold State.outAppend at h
  split at h
  · exact ⟨‹_›, (Option.some.inj h).symm⟩
  · cases h

/-- PUSH in BODY with room in the buffer and the cursor on a key byte. -/
theorem pushBody_room {s : State} (b : Byte) {k : Byte} (hr : s.outLen < s.outCap)
    (hk : keyRead s.keyRom s.cursor.toNat = some k) :
    pushBody b s = .next (State.advance (rev8 (b ^^^ k)) (nextCursor s.keyLen s.cursor.toNat)
      (s.appendByte (rev8 (b ^^^ k)))) := by
  unfold pushBody
  rw [if_neg (fun h => by rw [h] at hr; exact (BitVec.lt_irrefl _ hr))]
  simp only [transform, hk, State.outAppend, hr, if_true, State.keyLen]

theorem pushBody_full {s : State} (b : Byte) (h : s.outLen = s.outCap) :
    pushBody b s = .next (s.raise .capacityExceeded) := by
  simp [pushBody, h]

/-- All that PUSH can do in BODY when it goes on. -/
theorem pushBody_next {b : Byte} {s t : State} (h : pushBody b s = .next t) :
    (s.outLen = s.outCap ∧ t = s.raise .capacityExceeded) ∨
    (s.outLen < s.outCap ∧ ∃ k, keyRead s.keyRom s.cursor.toNat = some k ∧
      t = State.advance (rev8 (b ^^^ k)) (nextCursor s.keyLen s.cursor.toNat)
        (s.appendByte (rev8 (b ^^^ k)))) := by
  unfold pushBody at h
  split at h
  · exact .inl ⟨‹_›, by injection h with h; exact h.symm⟩
  · split at h
    · cases h
    · rename_i out next ht
      obtain ⟨k, hk, rfl, rfl⟩ := transform_eq_some.mp ht
      split at h
      · cases h
      · rename_i u hu
        obtain ⟨hr, rfl⟩ := outAppend_eq_some hu
        exact .inr ⟨hr, k, hk, by injection h with h; exact h.symm⟩

/-- The verify gate always answers a next state. -/
theorem verifyGate_eq (s : State) :
    verifyGate s = .next (if s.digest = s.expected then s.captureDigest.release
      else s.captureDigest.raise .checksumMismatch) := by
  unfold verifyGate
  split <;> simp_all

@[simp] theorem PortInput.event_ofCommand (w : CmdWord) : (PortInput.ofCommand w).event = .command w := rfl

@[simp] theorem State.withHost_host_self (s : State) : s.withHost s.host = s := rfl

@[simp] theorem State.withHost_withHost (s : State) (a b : List PortInput) : (s.withHost a).withHost b = s.withHost b := rfl

theorem State.nextEvent_nil {s : State} (h : s.host = []) : s.nextEvent = (.hold, s) := by
  simp [State.nextEvent, h]

theorem State.nextEvent_cons {s : State} {p : PortInput} {rest : List PortInput} (h : s.host = p :: rest) :
    s.nextEvent = (p.event, s.withHost rest) := by
  simp [State.nextEvent, h]

end Sys2Proof.Machine
end

