-- ==== Sys2Proof/Laws/Exec.lean ====
section
/-! SUPPORT. What a command and a step can do, once: inversion lemmas that later proofs cite in place of unfolding `exec` and `step`. -/

namespace Sys2Proof.Machine

@[simp] theorem exec_nop (s : State) : exec .nop s = .next s := rfl

@[simp] theorem exec_start (s : State) : exec .start s = .next s.openJob := rfl

theorem exec_reserved (op : Byte) (s : State) :
    exec (.reserved op) s = .next (if s.phase = .doneErr then s else s.raise .protocolError) :=
  protocolError_eq s

/-- END always answers a next state, by phase. -/
theorem exec_end (s : State) :
    exec .endCmd s = .next (match s.phase with
      | .header => s.raise .truncatedHeader
      | .body => if s.digest = s.expected then s.captureDigest.release else s.captureDigest.raise .checksumMismatch
      | .idle => s.raise .protocolError
      | .doneOk => s.raise .protocolError
      | .doneErr => s) := by
  simp only [exec, execEnd]
  cases h : s.phase <;> simp [protocolError, verifyGate_eq, h]

/-- ABORT always answers a next state, by phase. -/
theorem exec_abort (s : State) :
    exec .abort s = .next (match s.phase with
      | .header => s.raise .ioFailure
      | .body => s.raise .ioFailure
      | .doneOk => s.raise .ioFailure
      | .idle => s.raise .protocolError
      | .doneErr => s) := by
  simp only [exec, execAbort]
  cases h : s.phase <;> simp [protocolError, h]

theorem exec_push_header {s : State} (b : Byte) (h : s.phase = .header) : exec (.push b) s = pushHeader b s := by
  simp [exec, execPush, h]

theorem exec_push_body {s : State} (b : Byte) (h : s.phase = .body) : exec (.push b) s = pushBody b s := by
  simp [exec, execPush, h]

theorem exec_push_outside {s : State} (b : Byte) (h₁ : s.phase ≠ .header) (h₂ : s.phase ≠ .body) :
    exec (.push b) s = .next (if s.phase = .doneErr then s else s.raise .protocolError) := by
  cases h : s.phase <;> simp_all [exec, execPush, protocolError]

/-- All that PUSH can do when it goes on. -/
theorem exec_push_next {b : Byte} {s t : State} (h : exec (.push b) s = .next t) :
    (s.phase = .header ∧ s.hdrCnt.toNat < 3 ∧ t = s.recordHeaderByte b) ∨
    (s.phase = .header ∧ s.hdrCnt.toNat = 3 ∧ ∃ c, startCursor s.keyLen (s.recordHeaderByte b).expected = some c ∧
      t = (s.recordHeaderByte b).beginBody c) ∨
    (s.phase = .body ∧ s.outLen = s.outCap ∧ t = s.raise .capacityExceeded) ∨
    (s.phase = .body ∧ s.outLen < s.outCap ∧ ∃ k, keyRead s.keyRom s.cursor.toNat = some k ∧
      t = State.advance (rev8 (b ^^^ k)) (nextCursor s.keyLen s.cursor.toNat)
        (s.appendByte (rev8 (b ^^^ k)))) ∨
    ((s.phase = .idle ∨ s.phase = .doneOk) ∧ t = s.raise .protocolError) ∨
    (s.phase = .doneErr ∧ t = s) := by
  by_cases h₁ : s.phase = .header
  · rw [exec_push_header b h₁] at h
    rcases pushHeader_next h with h | ⟨h, c⟩
    · exact .inl ⟨h₁, h⟩
    · exact .inr (.inl ⟨h₁, h, c⟩)
  · by_cases h₂ : s.phase = .body
    · rw [exec_push_body b h₂] at h
      rcases pushBody_next h with ⟨h, e⟩ | ⟨h, k⟩
      · exact .inr (.inr (.inl ⟨h₂, h, e⟩))
      · exact .inr (.inr (.inr (.inl ⟨h₂, h, k⟩)))
    · rw [exec_push_outside b h₁ h₂] at h
      injection h with h
      cases hp : s.phase <;> simp_all

/-- All that any command can do when it goes on, over the whole command set. -/
theorem exec_next_cases {i : Instr} {s t : State} (h : exec i s = .next t) :
    (i = .nop ∧ t = s) ∨ (i = .start ∧ t = s.openJob) ∨
    (s.phase = .doneErr ∧ i ≠ .start ∧ t = s) ∨
    (s.phase = .header ∧ s.hdrCnt.toNat < 3 ∧ ∃ b, i = .push b ∧ t = s.recordHeaderByte b) ∨
    (s.phase = .header ∧ s.hdrCnt.toNat = 3 ∧ ∃ b c, i = .push b ∧
      startCursor s.keyLen (s.recordHeaderByte b).expected = some c ∧
      t = (s.recordHeaderByte b).beginBody c) ∨
    (s.phase = .body ∧ s.outLen = s.outCap ∧ ∃ b, i = .push b ∧ t = s.raise .capacityExceeded) ∨
    (s.phase = .body ∧ s.outLen < s.outCap ∧ ∃ b k, i = .push b ∧ keyRead s.keyRom s.cursor.toNat = some k ∧
      t = State.advance (rev8 (b ^^^ k)) (nextCursor s.keyLen s.cursor.toNat)
        (s.appendByte (rev8 (b ^^^ k)))) ∨
    ((s.phase = .idle ∨ s.phase = .doneOk) ∧ (∃ b, i = .push b) ∧ t = s.raise .protocolError) ∨
    (i = .endCmd ∧ s.phase = .header ∧ t = s.raise .truncatedHeader) ∨
    (i = .endCmd ∧ s.phase = .body ∧ s.digest = s.expected ∧ t = s.captureDigest.release) ∨
    (i = .endCmd ∧ s.phase = .body ∧ s.digest ≠ s.expected ∧ t = s.captureDigest.raise .checksumMismatch) ∨
    (i = .endCmd ∧ (s.phase = .idle ∨ s.phase = .doneOk) ∧ t = s.raise .protocolError) ∨
    (i = .abort ∧ (s.phase = .header ∨ s.phase = .body ∨ s.phase = .doneOk) ∧ t = s.raise .ioFailure) ∨
    (i = .abort ∧ s.phase = .idle ∧ t = s.raise .protocolError) ∨
    ((∃ op, i = .reserved op) ∧ s.phase ≠ .doneErr ∧ t = s.raise .protocolError) := by
  cases i with
  | nop => exact .inl ⟨rfl, by simpa using h.symm⟩
  | start => exact .inr (.inl ⟨rfl, by simpa using h.symm⟩)
  | push b =>
    rcases exec_push_next h with ⟨h₁, h₂, h₃⟩ | ⟨h₁, h₂, c, h₃, h₄⟩ | ⟨h₁, h₂, h₃⟩ | ⟨h₁, h₂, k, h₃, h₄⟩ | ⟨h₁, h₂⟩ |
      ⟨h₁, h₂⟩ <;> simp_all
  | endCmd =>
    rw [exec_end] at h
    injection h with h
    cases hp : s.phase <;> simp_all
    split at h <;> simp_all
  | abort =>
    rw [exec_abort] at h
    injection h with h
    cases hp : s.phase <;> simp_all
  | reserved op =>
    rw [exec_reserved] at h
    injection h with h
    split at h <;> simp_all

/-- No command writes the key ROM, the parameters, or what the host presents. -/
theorem exec_keeps_build {i : Instr} {s t : State} (h : exec i s = .next t) :
    t.keyRom = s.keyRom ∧ t.outCap = s.outCap ∧ t.rc = s.rc ∧ t.host = s.host := by
  cases i with
  | nop => simp only [exec_nop] at h; injection h with h; subst h; simp
  | start => simp only [exec_start] at h; injection h with h; subst h; simp
  | push b =>
    rcases exec_push_next h with ⟨-, -, rfl⟩ | ⟨-, -, c, -, rfl⟩ | ⟨-, -, rfl⟩ | ⟨-, -, k, -, rfl⟩ | ⟨-, rfl⟩ | ⟨-, rfl⟩ <;> simp
  | endCmd =>
    rw [exec_end] at h
    injection h with h
    subst h
    split <;> (try split) <;> simp
  | abort =>
    rw [exec_abort] at h
    injection h with h
    subst h
    split <;> simp
  | reserved op =>
    rw [exec_reserved] at h
    injection h with h
    subst h
    split <;> simp

/-! ## One step -/

theorem step_silent {s : State} (h : s.host = []) : step s = .next s := by
  simp [step, State.nextEvent_nil h]

theorem step_presented {s : State} {p : PortInput} {rest : List PortInput} (h : s.host = p :: rest) :
    step s = match p.event with
      | .hold => .next (s.withHost rest)
      | .reset => .next (s.withHost rest).applyReset
      | .command w => exec (decode w) (s.withHost rest) := by
  simp only [step, State.nextEvent_cons h]
  cases p.event <;> rfl

/-- All that a step can do when it goes on. -/
theorem step_next {s t : State} (h : step s = .next t) :
    (s.host = [] ∧ t = s) ∨
    ∃ p rest, s.host = p :: rest ∧
      ((p.event = .hold ∧ t = s.withHost rest) ∨
       (p.event = .reset ∧ t = (s.withHost rest).applyReset) ∨
       (∃ w, p.event = .command w ∧ exec (decode w) (s.withHost rest) = .next t)) := by
  cases hs : s.host with
  | nil =>
    rw [step_silent hs] at h
    injection h with h
    exact .inl ⟨rfl, h.symm⟩
  | cons p rest =>
    rw [step_presented hs] at h
    refine .inr ⟨p, rest, rfl, ?_⟩
    cases he : p.event with
    | hold => rw [he] at h; injection h with h; exact .inl ⟨rfl, h.symm⟩
    | reset => rw [he] at h; injection h with h; exact .inr (.inl ⟨rfl, h.symm⟩)
    | command w => rw [he] at h; exact .inr (.inr ⟨w, rfl, h⟩)

/-- Every command keeps the canonical form of the output space. -/
theorem exec_keeps_wf {i : Instr} {s t : State} (h : exec i s = .next t) (hw : s.outBuf.wf) : t.outBuf.wf := by
  cases i with
  | nop => simp only [exec_nop] at h; injection h with h; subst h; exact hw
  | start => simp only [exec_start] at h; injection h with h; subst h; exact Memory.wf_nil
  | push b =>
    rcases exec_push_next h with ⟨-, -, rfl⟩ | ⟨-, -, c, -, rfl⟩ | ⟨-, -, rfl⟩ | ⟨-, -, k, -, rfl⟩ | ⟨-, rfl⟩ | ⟨-, rfl⟩
    · exact hw
    · exact hw
    · exact Memory.wf_nil
    · exact Memory.write_keeps_wf hw _ _
    · exact Memory.wf_nil
    · exact hw
  | endCmd =>
    rw [exec_end] at h
    injection h with h
    subst h
    split <;> (try split) <;> first | exact hw | exact Memory.wf_nil
  | abort =>
    rw [exec_abort] at h
    injection h with h
    subst h
    split <;> first | exact hw | exact Memory.wf_nil
  | reserved op =>
    rw [exec_reserved] at h
    injection h with h
    subst h
    split <;> first | exact hw | exact Memory.wf_nil

/-- Both memories of the reset state are in the canonical form. -/
theorem reset_memory_wf : State.reset.outBuf.wf ∧ State.reset.keyRom.wf :=
  ⟨Memory.wf_nil, Memory.ofBytes_wf _⟩

end Sys2Proof.Machine
end

