-- ==== Sys2Proof/Laws/PerInstr.lean ====
section
/-! SUPPORT. The family EncodingRow: the word of a well-formed command selects a row of the opcode table that stands under the command's
mnemonic (spec/30_encoding.md R58). -/

/-- The word of `i` is a word of `i`'s row. -/
def Sys2Proof.Laws.EncodingRow.Statement (i : Sys2Proof.Instr) : Prop :=
  i.wellFormed = true → ∃ r ∈ Sys2Proof.opcodeTable, r.selects (Sys2Proof.encode i) = true ∧ r.mnemonic = i.mnemonic

theorem Sys2Proof.Laws.EncodingRow.nop : Sys2Proof.Laws.EncodingRow.Statement .nop :=
  fun _ => ⟨⟨.NOP, 0x0000, 0xFF00⟩, by decide, by decide, rfl⟩

theorem Sys2Proof.Laws.EncodingRow.start : Sys2Proof.Laws.EncodingRow.Statement .start :=
  fun _ => ⟨⟨.START, 0x0100, 0xFF00⟩, by decide, by decide, rfl⟩

theorem Sys2Proof.Laws.EncodingRow.push (b : Sys2Proof.Byte) : Sys2Proof.Laws.EncodingRow.Statement (.push b) := by
  refine fun _ => ⟨⟨.PUSH, 0x0200, 0xFF00⟩, by decide, ?_, rfl⟩
  revert b
  decide

theorem Sys2Proof.Laws.EncodingRow.endCmd : Sys2Proof.Laws.EncodingRow.Statement .endCmd :=
  fun _ => ⟨⟨.END, 0x0300, 0xFF00⟩, by decide, by decide, rfl⟩

theorem Sys2Proof.Laws.EncodingRow.abort : Sys2Proof.Laws.EncodingRow.Statement .abort :=
  fun _ => ⟨⟨.ABORT, 0x0400, 0xFF00⟩, by decide, by decide, rfl⟩

theorem Sys2Proof.Laws.EncodingRow.reserved (op : Sys2Proof.Byte) : Sys2Proof.Laws.EncodingRow.Statement (.reserved op) := by
  unfold Sys2Proof.Laws.EncodingRow.Statement
  revert op
  decide
end

