-- ==== Sys2Proof/Laws/Run.lean ====
section
/-! SUPPORT. A run of commands through the command port, one command at a time: what a command does, it does whatever the host presents
afterwards, so a run of `i :: is` is `i` and then a run of `is`. -/

namespace Sys2Proof.Machine

/-- A command neither reads nor writes what the host still presents. -/
theorem exec_withHost (i : Instr) (s : State) (l : List PortInput) :
    exec i (s.withHost l) = match exec i s with
      | .next t => .next (t.withHost l)
      | .fault r => .fault r
      | .refused r => .refused r := by
  cases i with
  | nop => rfl
  | start => rfl
  | endCmd =>
    simp only [exec_end, State.withHost_phase]
    cases h : s.phase with
    | body =>
      have hd : (s.withHost l).digest = s.digest := rfl
      simp only [State.withHost_expected, hd]
      by_cases he : s.digest = s.expected
      · simp only [he, if_true]; rfl
      · simp only [he, if_false]; rfl
    | _ => rfl
  | abort =>
    simp only [exec_abort, State.withHost_phase]
    cases s.phase <;> rfl
  | reserved op =>
    simp only [exec_reserved, State.withHost_phase]
    by_cases h : s.phase = .doneErr
    · simp only [h, if_true]
    · simp only [h, if_false]; rfl
  | push b =>
    cases h : s.phase with
    | header =>
      rw [exec_push_header b h, exec_push_header b (by simpa using h)]
      simp only [pushHeader, State.withHost_hdrCnt, State.withHost_keyLen]
      by_cases h₁ : 4 ≤ s.hdrCnt.toNat
      · simp only [h₁, if_true]
      · by_cases h₂ : s.hdrCnt.toNat = 3
        · simp only [h₂, if_true]
          have he : ((s.withHost l).recordHeaderByte b).expected = (s.recordHeaderByte b).expected := rfl
          rw [he]
          cases startCursor s.keyLen (s.recordHeaderByte b).expected <;> rfl
        · simp only [h₁, h₂, if_false]
          rfl
    | body =>
      rw [exec_push_body b h, exec_push_body b (by simpa using h)]
      simp only [pushBody, State.withHost_outLen, State.withHost_outCap, State.withHost_keyRom, State.withHost_cursor]
      by_cases hf : s.outLen = s.outCap
      · simp only [hf, if_true]
        rfl
      · simp only [hf, if_false]
        cases transform s.keyRom b s.cursor.toNat with
        | none => rfl
        | some p =>
          simp only [State.outAppend, State.withHost_outLen, State.withHost_outCap]
          by_cases hr : s.outLen < s.outCap
          · simp only [hr, if_true]; rfl
          · simp only [hr, if_false]
    | _ =>
      rw [exec_push_outside b (by simp [h]) (by simp [h]), exec_push_outside b (by simp [h]) (by simp [h])]
      simp only [State.withHost_phase, h]
      rfl

/-- One step of a run, for any machine. -/
theorem core_run_succ (M : Host.Core) (k : Nat) (s : M.State) :
    M.run (k + 1) s = match M.step s with
      | .next t => M.run k t
      | .fault r => .fault r
      | .refused r => .refused r := by
  cases h : M.step s <;> simp only [Host.Core.run, h]

theorem runCommands_nil (s : State) : runCommands [] s = .next (s.withHost []) := rfl

/-- The first command of a run, as its word decodes, and then the rest. -/
theorem runCommands_cons (i : Instr) (is : List Instr) (s : State) :
    runCommands (i :: is) s = match exec (decode (encode i)) s with
      | .next t => runCommands is t
      | .fault r => .fault r
      | .refused r => .refused r := by
  have hrun := core_run_succ Sys2Proof.core is.length (s.withHost (issue (assemble (i :: is))))
  have hstep : Sys2Proof.core.step (s.withHost (issue (assemble (i :: is)))) =
      exec (decode (encode i)) (s.withHost (issue (assemble is))) := rfl
  rw [hstep, exec_withHost] at hrun
  refine Eq.trans hrun ?_
  cases exec (decode (encode i)) s <;> rfl

end Sys2Proof.Machine
end

