-- ==== Sys2Proof/Tests/Slice0.lean ====
section
/-! SUPPORT. The model's own tests: words written out from spec/30_encoding.md R58, single steps and port reads with the values of
spec/95_test_vectors.md, and for every obligation with hypotheses a concrete state that meets them. -/

namespace Sys2Proof.Machine

/-! ## Well-formedness -/

theorem test_wf_reserved_00_refused : (Instr.reserved 0x00).wellFormed = false := by decide
theorem test_wf_reserved_04_refused : (Instr.reserved 0x04).wellFormed = false := by decide
theorem test_wf_reserved_05_accepted : (Instr.reserved 0x05).wellFormed = true := by decide

/-! ## Decoding, bit by bit from R56 and R58 -/

theorem test_decode_nop : decode 0b0000000000000000 = .nop := by decide
theorem test_decode_nop_data_ignored : decode 0b0000000010101011 = .nop := by decide
theorem test_decode_start : decode 0b0000000111111111 = .start := by decide
theorem test_decode_push_AA : decode 0b0000001010101010 = .push 0xAA := by decide
theorem test_decode_push_01 : decode 0b0000001000000001 = .push 0x01 := by decide
theorem test_decode_end : decode 0b0000001111001101 = .endCmd := by decide
theorem test_decode_abort : decode 0b0000010000000000 = .abort := by decide
theorem test_decode_reserved_05 : decode 0b0000010100000000 = .reserved 0x05 := by decide
theorem test_decode_reserved_06 : decode 0b0000011000000000 = .reserved 0x06 := by decide
theorem test_decode_reserved_08 : decode 0b0000100000000000 = .reserved 0x08 := by decide
theorem test_decode_reserved_10 : decode 0b0001000000000000 = .reserved 0x10 := by decide
theorem test_decode_reserved_20 : decode 0b0010000000000000 = .reserved 0x20 := by decide
theorem test_decode_reserved_40 : decode 0b0100000000000000 = .reserved 0x40 := by decide
theorem test_decode_reserved_80 : decode 0b1000000000000000 = .reserved 0x80 := by decide
theorem test_decodeTableWord : decodeTableWord 16 0x02AA = some (.push 0xAA) := by decide
theorem test_decodeTableWord_too_long : decodeTableWord 24 0x0200 = none := by decide

/-! ## States for the tests: the key table K4 of spec/95_test_vectors.md and RC_ADLER32 -/

/-- The core of the test vectors after reset: K4, `OUT_CAP = 2^32 - 1`, RC_ADLER32. -/
def k4 : State where
  phase := .idle
  err := .none
  expected := 0
  hdrCnt := 0
  cursor := 0
  ck := 1
  actual := 0
  outLen := 0
  outBuf := []
  keyRom := Memory.ofBytes [0x01, 0x02, 0x03, 0x04]
  outCap := 0xFFFFFFFF
  rc := .adler32
  host := []

/-- P1 after START. -/
def k4Header : State := { k4 with phase := .header }

/-- P1 after its third header byte. -/
def k4Header3 : State := { k4Header with expected := 0x00960096, hdrCnt := 3 }

/-- P1 before its payload byte. -/
def k4Body : State := { k4Header with phase := .body, expected := 0x00960096, hdrCnt := 4, cursor := 2 }

/-- P1 after its payload byte 0xAA. -/
def k4Body1 : State := { k4Body with cursor := 3, ck := 0x00960096, outLen := 1, outBuf := [(0, 0x95)] }

/-- P1's end state. -/
def k4Ok : State := { k4Body1 with phase := .doneOk, actual := 0x00960096 }

/-- P4's end state. -/
def k4Err : State := { k4Header with phase := .doneErr, err := .truncatedHeader, expected := 0x00000201, hdrCnt := 2 }

/-- P2 before its END: the header value is 6. -/
def k4Body6 : State := { k4Body1 with expected := 6 }

/-- P8 before its second payload byte: `OUT_CAP = 1`, and the buffer is full. -/
def k4Full : State :=
  { k4Body with expected := 0, cursor := 1, ck := 0x00810081, outLen := 1, outBuf := [(0, 0x80)], outCap := 1 }

/-- The state of a next, and nothing of a stop. -/
def nextState : Result → Option State
  | .next s => some s
  | .fault _ => none
  | .refused _ => none

/-- What the registers 0x0 to 0x7 read, in order. -/
def registers (s : State) : List Word := [s.regRead 0, s.regRead 1, s.regRead 2, s.regRead 3, s.regRead 4, s.regRead 5, s.regRead 6, s.regRead 7]

/-! ## One step each -/

theorem test_nop_keeps_state : exec .nop k4Body1 = .next k4Body1 := rfl

/-- P7, word 3: START from an error gives STATUS 0x00000001. -/
theorem test_start_from_error : (nextState (exec .start k4Err)).map registers =
    some [0x00000001, 0, 0, 0, 0x00000001, 0, 0, 4] := by decide

/-- Spec 2.4: the header FF FF FF FF starts at cursor 3 with `L = 4`. -/
theorem test_push_fourth_header_byte :
    (nextState (exec (.push 0xFF) { k4Header with expected := 0x00FFFFFF, hdrCnt := 3 })).map registers =
    some [0x00000002, 0xFFFFFFFF, 4, 3, 0x00000001, 0, 0, 4] := by decide

/-- P1: the payload byte 0xAA at cursor 2. -/
theorem test_push_payload_byte : nextState (exec (.push 0xAA) k4Body) = some k4Body1 := by decide

/-- P1: the verify gate matches. -/
theorem test_end_match : nextState (exec .endCmd k4Body1) = some k4Ok := by decide

/-- P2: header value 6, STATUS 0x00000024 and ACTUAL 0x00960096. -/
theorem test_end_mismatch : (nextState (exec .endCmd k4Body6)).map registers =
    some [0x00000024, 6, 4, 3, 0x00960096, 0x00960096, 0, 4] := by decide

/-- R92's corner case: ABORT withdraws a released output; STATUS 0x00000034. -/
theorem test_abort_withdraws : (nextState (exec .abort k4Ok)).map registers =
    some [0x00000034, 0x00960096, 4, 3, 0x00960096, 0x00960096, 0, 4] := by decide

/-- R93: STATUS 0x00000054, the output discarded. -/
theorem test_reserved_discards : (nextState (exec (.reserved 0x05) k4Body1)).map registers =
    some [0x00000054, 0x00960096, 4, 3, 0x00960096, 0, 0, 4] := by decide

/-- Spec 2.8: a second error is not recorded. -/
theorem test_reserved_in_error : exec (.reserved 0x05) k4Err = .next k4Err := rfl

/-- The very next step runs the placed word, from the reset state of the host's own core. -/
theorem test_placed_word_runs_from_reset :
    (match step (State.reset.withFetchWord 16 0x0100) with
      | .next t => t.phase == .header
      | .fault _ => false
      | .refused _ => false) = true := by decide

theorem test_reset_between_commands :
    nextState (step (k4Body1.withHost [{ rst := true, cmdValid := true, cmdWord := 0x0300 }])) = some k4 := by decide

/-! ## Functions and ports -/

/-- Spec 2.1. -/
theorem test_rev8 : [rev8 0xA9, rev8 0x01, rev8 0x0F, rev8 0x12, rev8 0x3C] = [0x95, 0x80, 0xF0, 0x48, 0x3C] := by decide

/-- Spec 2.2, with the wrap at cursor 3 and no result at cursor 4. -/
theorem test_transform :
    [transform k4.keyRom 0xAA 2, transform k4.keyRom 0xAA 3, transform k4.keyRom 0xAA 4] =
    [some (0x95, 3), some (0x75, 0), none] := by decide

/-- Spec 2.2: `L = 1` and `L = 3`. -/
theorem test_transform_other_lengths :
    transform (Memory.ofBytes [0x5A]) 0x10 0 = some (0x52, 0) ∧
    transformRun (Memory.ofBytes [0x11, 0x22, 0x33]) [0, 0, 0, 0] 0 = some ([0x88, 0x44, 0xCC, 0x88], 1) := by decide

/-- Spec 2.3. -/
theorem test_encrypt : encrypt k4.keyRom 0xFF 3 = some 0xFB := by decide

/-- Spec 2.4. -/
theorem test_start_cursor :
    [startCursor 1024 0x12345678, startCursor 1 0x12345678, startCursor 5 0x00960096, startCursor 3 0x80000000] =
    [some 632, some 0, some 0, some 2] := by decide

/-- Spec 2.5: the Adler-32 of `abc`. -/
theorem test_adler32 : rcDigestOf rcAdler32 [0x61, 0x62, 0x63] = 0x024D0127 := by decide

/-- P1's end state on the register read port and the output read port. -/
theorem test_ports_after_success :
    registers k4Ok = [0x00000103, 0x00960096, 4, 3, 0x00960096, 0x00960096, 1, 4] ∧ k4Ok.regRead 0xF = 0 ∧
    k4Ok.outRead 0 = { ok := true, data := 0x95 } ∧ k4Ok.outRead 1 = { ok := false, data := 0x00 } ∧
    k4Body1.outRead 0 = { ok := false, data := 0x00 } := by decide

/-- Spec 2.2, probe port. -/
theorem test_probe :
    k4.probe 0xAA 2 = { out := 0x95, next := 3, ok := true } ∧
    k4.probe 0xAA 4 = { out := 0x00, next := 0, ok := false } ∧ (k4.probe 0xAA 0xFFFFFFFF).ok = false := by decide

/-- R63's example line. -/
theorem test_listing : listingLine 0x02AA =
    some ['0', 'x', '0', '2', 'A', 'A', ' ', ' ', 'P', 'U', 'S', 'H', ' ', '0', 'x', 'A', 'A'] := by decide

theorem test_parse_decimal_with_comment :
    parseLine [' ', 'P', 'U', 'S', 'H', ' ', '2', '5', '5', ' ', ';', 'x'] = some [.push 0xFF] := by decide

theorem test_parse_too_large : parseLine ['P', 'U', 'S', 'H', ' ', '2', '5', '6'] = none := by decide

/-! ## Witnesses: states that meet the hypotheses of the obligations -/

theorem k4_paramsOk : k4.ParamsOk := ⟨rfl, by decide, by decide⟩

/-- The invariant holds of a state in BODY with one output byte. -/
theorem k4Body1_inv : k4Body1.Inv :=
  ⟨⟨rfl, by decide, by decide⟩, by decide, by decide, by decide, by decide, by decide, rfl, by decide, by decide, by decide,
    by decide, by decide, by decide, by decide, by decide, by decide, by decide, by decide, by decide⟩

/-- The invariant holds of a state in DONE_OK with one output byte. -/
theorem k4Ok_inv : k4Ok.Inv :=
  ⟨⟨rfl, by decide, by decide⟩, by decide, by decide, by decide, by decide, by decide, rfl, by decide, by decide, by decide,
    by decide, by decide, by decide, by decide, by decide, by decide, by decide, by decide, by decide⟩

/-- The invariant holds of a state in IDLE and of one in HEADER. -/
theorem k4_inv : k4.Inv :=
  ⟨⟨rfl, by decide, by decide⟩, by decide, by decide, by decide, by decide, by decide, rfl, by decide, by decide, by decide,
    by decide, by decide, by decide, by decide, by decide, by decide, by decide, by decide, by decide⟩

theorem k4Header_inv : k4Header.Inv :=
  ⟨⟨rfl, by decide, by decide⟩, by decide, by decide, by decide, by decide, by decide, rfl, by decide, by decide, by decide,
    by decide, by decide, by decide, by decide, by decide, by decide, by decide, by decide, by decide⟩

theorem witness_DecodeEncodeRoundTrip : (Instr.reserved 0x05).wellFormed = true ∧ (Instr.reserved 0xFF).wellFormed = true := by decide

theorem witness_EveryWordIsExactlyOneCommand :
    decode 0x02FF = .push 0xFF ∧ decode 0x0500 = .reserved 0x05 ∧ opField 0x0100 = opField 0x01FF ∧
    (decode 0x01FF).mnemonic ≠ .PUSH := by decide

theorem witness_CommandTextReadsBack :
    commandText (.push 0xFF) = some ['P', 'U', 'S', 'H', ' ', '0', 'x', 'F', 'F'] ∧ commandText .endCmd = some ['E', 'N', 'D'] := by
  decide

theorem witness_StepRunsThePresentedCommand :
    (k4.withHost [{ rst := false, cmdValid := true, cmdWord := 0x0100 }]).host =
      { rst := false, cmdValid := true, cmdWord := 0x0100 } :: [] ∧
    decode 0x0100 = .start ∧ Instr.start.wellFormed = true := by decide

theorem witness_ResetSetsEveryRegister :
    (k4Ok.withHost [{ rst := true, cmdValid := false, cmdWord := 0 }]).host =
      { rst := true, cmdValid := false, cmdWord := 0 } :: [] := by decide

theorem witness_ResetStateReadsAsTheTable : 0 < Config.keyLen := Nat.succ_pos _

theorem witness_SilenceHoldsTheState :
    k4.host = [] ∧ (k4.withHost [{ rst := false, cmdValid := false, cmdWord := 0x0300 }]).host =
      { rst := false, cmdValid := false, cmdWord := 0x0300 } :: [] := by decide

theorem witness_ResetAndStartDifferOnlyInPhase :
    k4.phase = .idle ∧ exec .start k4 = .next k4Header ∧ k4Header.phase = .header := ⟨rfl, rfl, rfl⟩

theorem witness_PushTakesAHeaderByte :
    k4Header.phase = .header ∧ k4Header.hdrCnt.toNat = 0 ∧
    ({ k4Header with hdrCnt := 2 } : State).phase = .header ∧ ({ k4Header with hdrCnt := 2 } : State).hdrCnt.toNat < 3 := by decide

theorem witness_FourthHeaderByteBeginsTheBody :
    k4Header3.phase = .header ∧ k4Header3.hdrCnt.toNat = 3 ∧ 1 ≤ k4Header3.keyLen ∧ k4Header3.keyLen ≤ 4294967295 := by decide

theorem witness_PushTransformsAPayloadByte :
    (k4Body.phase = .body ∧ k4Body.keyRom = Memory.ofBytes [0x01, 0x02, 0x03, 0x04] ∧
      ([0x01, 0x02, 0x03, 0x04] : List Byte).length ≤ 4294967295 ∧
      k4Body.cursor.toNat < ([0x01, 0x02, 0x03, 0x04] : List Byte).length ∧ k4Body.outLen < k4Body.outCap) ∧
    (k4Body1.phase = .body ∧ k4Body1.cursor.toNat = 3 ∧ k4Body1.outLen < k4Body1.outCap) := by decide

theorem witness_FullBufferEndsTheJob : k4Full.phase = .body ∧ k4Full.outLen = k4Full.outCap := by decide

theorem witness_EndInHeaderIsTruncated : k4Header.phase = .header ∧ k4Header3.phase = .header := by decide

theorem witness_VerifyGateComparesDigest :
    (k4Body1.phase = .body ∧ k4Body1.prim.digest k4Body1.ck = k4Body1.expected) ∧
    (k4Body6.phase = .body ∧ k4Body6.prim.digest k4Body6.ck ≠ k4Body6.expected) := by decide

theorem witness_AbortEndsTheJob :
    k4Header.phase = .header ∧ k4Body.phase = .body ∧ k4Ok.phase = .doneOk ∧ k4.phase = .idle ∧ k4Err.phase = .doneErr := by decide

theorem witness_ReservedOpcodeEndsTheJob :
    0x05 ≤ (0x05 : Byte).toNat ∧ 0x05 ≤ (0xFF : Byte).toNat ∧ k4Ok.phase ≠ .doneErr ∧ k4Err.phase = .doneErr := by decide

theorem witness_ProtocolErrorExactlyOutOfPhase :
    k4Ok.phase ≠ .doneErr ∧ k4Ok.err ≠ .protocolError ∧ k4.phase ≠ .doneErr ∧ k4.err ≠ .protocolError ∧
    k4Err.phase = .doneErr ∧ k4Err.err ≠ .protocolError ∧ exec (.reserved 0x05) k4Err = .next k4Err :=
  ⟨by decide, by decide, by decide, by decide, rfl, by decide, rfl⟩

theorem witness_ErrorEntryKeepsTheOtherRegisters :
    exec .abort k4Ok = .next (k4Ok.raise .ioFailure) ∧ k4Ok.phase ≠ .doneErr ∧ (k4Ok.raise .ioFailure).phase = .doneErr :=
  ⟨rfl, by decide, rfl⟩

theorem witness_StartOpensAFreshJob :
    k4Err.phase = .doneErr ∧ exec .start k4Err = .next k4Err.openJob ∧ k4Err.openJob.phase ≠ .doneErr :=
  ⟨rfl, rfl, by decide⟩

theorem witness_FirstErrorIsKept : k4Err.phase = .doneErr ∧ Instr.endCmd ≠ .start := by decide

theorem witness_OnlyStartOrResetLeavesAnError :
    (k4Err.withHost [PortInput.ofCommand 0x0100]).phase = .doneErr ∧
    step (k4Err.withHost [PortInput.ofCommand 0x0100]) = .next (k4Err.withHost []).openJob ∧
    (k4Err.withHost []).openJob.phase ≠ .doneErr ∧
    step (k4Err.withHost [{ rst := true, cmdValid := false, cmdWord := 0 }]) = .next (k4Err.withHost []).applyReset ∧
    (k4Err.withHost []).applyReset.phase ≠ .doneErr ∧
    step (k4Err.withHost [{ rst := true, cmdValid := true, cmdWord := 0x0100 }]) = .next (k4Err.withHost []).applyReset :=
  ⟨rfl, rfl, by decide, rfl, by decide, rfl⟩

/-- One next state in each of the four phases the statement speaks of. -/
theorem witness_WhoEntersEachPhase :
    (exec .nop k4 = .next k4 ∧ k4.phase = .idle) ∧
    (exec .start k4 = .next k4Header ∧ k4Header.phase = .header) ∧
    (nextState (exec (.push 0xAA) k4Body) = some k4Body1 ∧ k4Body1.phase = .body) ∧
    (nextState (exec .endCmd k4Body1) = some k4Ok ∧ k4Ok.phase = .doneOk) ∧
    (exec .abort k4Ok = .next (k4Ok.raise .ioFailure) ∧ (k4Ok.raise .ioFailure).phase = .doneErr) :=
  ⟨⟨rfl, rfl⟩, ⟨rfl, rfl⟩, ⟨by decide, rfl⟩, ⟨by decide, rfl⟩, ⟨rfl, rfl⟩⟩

/-- One state for each of the four stops; the cursor and the counter at the first value out of range. -/
theorem witness_NeverProducedValuesFault :
    (({ k4Body with cursor := 4 } : State).phase = .body ∧ ({ k4Body with cursor := 4 } : State).outLen ≠ k4Body.outCap ∧
      ({ k4Body with cursor := 4 } : State).keyLen ≤ ({ k4Body with cursor := 4 } : State).cursor.toNat) ∧
    (({ k4Header with hdrCnt := 4 } : State).phase = .header ∧ 4 ≤ ({ k4Header with hdrCnt := 4 } : State).hdrCnt.toNat) ∧
    (({ k4Header3 with keyRom := [] } : State).phase = .header ∧ ({ k4Header3 with keyRom := [] } : State).hdrCnt.toNat = 3 ∧
      ({ k4Header3 with keyRom := [] } : State).keyLen = 0) ∧
    (({ k4Full with outCap := 0 } : State).phase = .body ∧ ({ k4Full with outCap := 0 } : State).keyRom.dense ∧
      ({ k4Full with outCap := 0 } : State).cursor.toNat < k4Full.keyLen ∧
      ({ k4Full with outCap := 0 } : State).outCap < ({ k4Full with outCap := 0 } : State).outLen) :=
  ⟨by decide, by decide, by decide, by decide, rfl, by decide, by decide⟩

/-- A header byte, a payload byte and a byte that does not fit. -/
theorem witness_PushFrame :
    nextState (exec (.push 0x96) k4Header) = some (k4Header.recordHeaderByte 0x96) ∧
    (nextState (exec (.push 0xAA) k4Body) = some k4Body1 ∧ k4Body.phase = .body ∧ k4Body1.phase = .body) ∧
    (nextState (exec (.push 0x00) k4Full) = some (k4Full.raise .capacityExceeded) ∧
      (k4Full.raise .capacityExceeded).phase ≠ .body) := by decide

theorem witness_NonStoringFrame :
    nextState (exec .endCmd k4Body1) = some k4Ok ∧ (k4Ok.phase = .doneErr → k4Body1.phase = .doneErr) ∧
    nextState (exec (.reserved 0x05) k4Err) = some k4Err := by decide

theorem witness_WhoWritesEachRegister :
    nextState (exec (.push 0xAA) k4Body) = some k4Body1 ∧ k4Body1.cursor ≠ k4Body.cursor ∧ k4Body1.ck ≠ k4Body.ck ∧
    k4Body1.outLen ≠ k4Body.outLen ∧ k4Body1.outBuf.read 0 ≠ k4Body.outBuf.read 0 ∧
    nextState (exec .endCmd k4Body1) = some k4Ok ∧ k4Ok.actual ≠ k4Body1.actual ∧
    nextState (exec (.push 0x96) k4Header) = some (k4Header.recordHeaderByte 0x96) ∧
    (k4Header.recordHeaderByte 0x96).expected ≠ k4Header.expected := by decide

theorem witness_NoStepWritesTheKeyRom :
    step (k4Ok.withHost [{ rst := true, cmdValid := false, cmdWord := 0 }]) = .next (k4Ok.withHost []).applyReset := rfl

theorem witness_StepKeepsTheInvariant : k4Ok.Inv ∧ step k4Ok = .next k4Ok := ⟨k4Ok_inv, rfl⟩

theorem witness_InvariantStatesNeverStop : k4Body1.Inv := k4Body1_inv

theorem witness_DigestIsOfTheOutput :
    (k4Body1.Inv ∧ k4Body1.phase = .body) ∧ (k4Ok.Inv ∧ k4Ok.phase = .doneOk) ∧ (k4.Inv ∧ k4.phase = .idle) ∧
    (k4Header.Inv ∧ k4Header.phase = .header) :=
  ⟨⟨k4Body1_inv, rfl⟩, ⟨k4Ok_inv, rfl⟩, ⟨k4_inv, rfl⟩, ⟨k4Header_inv, rfl⟩⟩

theorem witness_RegisterMapReads : k4Ok.keyLen ≤ 4294967295 ∧ 0x8 ≤ (0x8 : BitVec 4).toNat ∧ 0x8 ≤ (0xF : BitVec 4).toNat := by decide

/-- The last address that has a byte and the first that has none. -/
theorem witness_OutputPortIsGated :
    k4Ok.Inv ∧ (k4Ok.phase = .doneOk ∧ (0 : Word) < k4Ok.outLen) ∧ ¬(k4Ok.phase = .doneOk ∧ (1 : Word) < k4Ok.outLen) :=
  ⟨k4Ok_inv, by decide, by decide⟩

theorem witness_NothingIsReleasedBeforeTheGate :
    k4Body1.phase ≠ .doneOk ∧ exec .abort k4Body1 = .next (k4Body1.raise .ioFailure) ∧ k4Body1.phase ≠ .doneErr ∧
    (k4Body1.raise .ioFailure).phase = .doneErr ∧ k4Body1.phase = .body :=
  ⟨by decide, rfl, by decide, rfl, rfl⟩

theorem witness_ReleasedOutputIsStable :
    k4Ok.phase = .doneOk ∧ step (k4Ok.withHost [PortInput.ofCommand 0x0000]) = .next k4Ok ∧ Instr.start ≠ .nop :=
  ⟨rfl, rfl, by decide⟩

theorem witness_ProbePortIsTheTransform :
    k4.keyRom = Memory.ofBytes [0x01, 0x02, 0x03, 0x04] ∧ k4.keyRom = k4Ok.keyRom ∧
    (3 : Word).toNat < ([0x01, 0x02, 0x03, 0x04] : List Byte).length ∧
    ([0x01, 0x02, 0x03, 0x04] : List Byte).length ≤ (4 : Word).toNat ∧
    ([0x01, 0x02, 0x03, 0x04] : List Byte).length ≤ 4294967295 := by decide

theorem witness_Rev8ReversesAllBits : 0 < 8 ∧ 7 < 8 := by decide

/-- The last cursor in range and the first out of it. -/
theorem witness_TransformOnItsDomain :
    3 < ([0x01, 0x02, 0x03, 0x04] : List Byte).length ∧ ([0x01, 0x02, 0x03, 0x04] : List Byte).length ≤ 4 := by decide

theorem witness_XorComesBeforeTheReversal :
    2 < ([0x01, 0x02, 0x03, 0x04] : List Byte).length ∧ 0 < ([0x5A] : List Byte).length := by decide

theorem witness_EncryptAndTransformAreInverse : 0 < ([0x5A] : List Byte).length := by decide

theorem witness_CursorTrajectory : 2 < ([0x11, 0x22, 0x33] : List Byte).length := by decide

theorem witness_HeaderIsLittleEndian : k4.ParamsOk := k4_paramsOk

/-- The payload of P1, with room for more and with room for exactly that. -/
theorem witness_BodyHoldsTheTransformedPayload :
    k4.ParamsOk ∧ ([0xAA] : List Byte).length ≤ k4.outCap.toNat ∧
    ({ k4 with outCap := 1 } : State).ParamsOk ∧ ([0xAA] : List Byte).length ≤ ({ k4 with outCap := 1 } : State).outCap.toNat ∧
    [0x95] = transformSeq k4.keyRom.bytes [0xAA] ((headerValue 0x96 0x00 0x96 0x00).toNat % k4.keyLen) :=
  ⟨k4_paramsOk, by decide, ⟨k4_paramsOk.romDense, k4_paramsOk.lenPos, k4_paramsOk.lenMax⟩, by decide, by decide⟩

/-- A container with a NOP among its commands, and one shorter than a header. -/
theorem witness_ContainerRunIsTheSourceDecode :
    k4.ParamsOk ∧
    ([.start, .push 0x96, .push 0x00, .nop, .push 0x96, .push 0x00, .push 0xAA, .endCmd] : List Instr).filter
      (fun i => decide (i ≠ .nop)) = asmContainer (0x96 :: 0x00 :: 0x96 :: 0x00 :: [0xAA]) ∧
    ([.start, .endCmd] : List Instr).filter (fun i => decide (i ≠ .nop)) = asmContainer [] :=
  ⟨k4_paramsOk, by decide, by decide⟩

/-- The three outcomes of a container with a whole header: the digest matches, it does not, the payload does not fit. -/
theorem witness_ContainerRunIsTheSourceDecode_outcomes :
    rcDigestOf k4.prim (transformSeq k4.keyRom.bytes [0xAA] ((headerValue 0x96 0x00 0x96 0x00).toNat % k4.keyLen)) =
      headerValue 0x96 0x00 0x96 0x00 ∧
    rcDigestOf k4.prim (transformSeq k4.keyRom.bytes [0xAA] ((headerValue 0x06 0x00 0x00 0x00).toNat % k4.keyLen)) ≠
      headerValue 0x06 0x00 0x00 0x00 ∧
    ([0xAA] : List Byte).length ≤ k4.outCap.toNat ∧ k4Full.outCap.toNat < ([0x00, 0x00] : List Byte).length := by decide

/-- P1 decodes well, and RC_ADLER32 catches every change of one byte. -/
theorem witness_TamperingIsCaughtIfTheChecksumCatchesIt :
    k4.ParamsOk ∧ rcDetectsOneByte k4.prim ∧ (0xAA : Byte) ≠ 0xAB ∧
    nextState (runCommands (asmContainer (0x96 :: 0x00 :: 0x96 :: 0x00 :: ([] ++ 0xAA :: []))) k4) = some k4Ok ∧
    k4Ok.phase = .doneOk :=
  ⟨k4_paramsOk, adler32_detects_one_byte, by decide, by decide, rfl⟩

theorem witness_ChunkingDoesNotMatter : runCommands [.start] k4 = .next k4Header := rfl

theorem witness_StartForgetsTheHistory : k4.keyRom = k4Ok.keyRom ∧ k4.outCap = k4Ok.outCap ∧ k4.rc = k4Ok.rc := by decide

/-- Two instances on one key ROM, the second with a command to run. -/
def twoCores : System := { cores := [k4Ok.withHost [PortInput.ofCommand 0x0100], k4.withHost [PortInput.ofCommand 0x0100]] }

theorem witness_InstanceStepTouchesNoOther :
    System.stepAt 1 twoCores = .next { cores := [k4Ok.withHost [PortInput.ofCommand 0x0100], k4Header] } := rfl

theorem witness_InstanceOrderIsUnobservable :
    (0 : Nat) ≠ 1 ∧
    System.stepAt 0 twoCores = .next { cores := [k4Header, k4.withHost [PortInput.ofCommand 0x0100]] } ∧
    System.stepAt 1 { cores := [k4Header, k4.withHost [PortInput.ofCommand 0x0100]] } = .next { cores := [k4Header, k4Header] } :=
  ⟨by decide, rfl, rfl⟩

theorem witness_InstancesShareOneKeyRom : twoCores.sharesRom k4.keyRom ∧
    System.stepAt 1 twoCores = .next { cores := [k4Ok.withHost [PortInput.ofCommand 0x0100], k4Header] } := by
  refine ⟨?_, rfl⟩
  intro c hc
  simp only [twoCores, List.mem_cons, List.not_mem_nil, or_false] at hc
  rcases hc with rfl | rfl <;> rfl

end Sys2Proof.Machine
end

section
/-! PROOFS. PUSH of the fourth header byte (R90 in HEADER, R28, R79). -/

namespace Sys2Proof.Machine

/-- R27: the fourth header byte brings HDR_CNT to 4, without wrapping in its three bits. -/
theorem State.recordHeaderByte_hdrCnt_of_three {s : State} (b : Byte) (h : s.hdrCnt.toNat = 3) :
    (s.recordHeaderByte b).hdrCnt = 4 := by
  rw [State.recordHeaderByte_hdrCnt, show s.hdrCnt = 3 from BitVec.eq_of_toNat_eq h]
  rfl

/-- R90: with a key table of R8's lengths the start cursor is a 32-bit value that holds `e mod L` exactly. -/
theorem startCursor_exists {len : Nat} (e : Word) (h₁ : 1 ≤ len) (h₂ : len ≤ 4294967295) :
    ∃ c, startCursor len e = some c ∧ c.toNat = e.toNat % len := by
  have hc := startCursor_of_bounds e h₁ h₂
  obtain ⟨-, -, hmod⟩ := startCursor_eq_some hc
  exact ⟨_, hc, hmod⟩

/-- R26, R46: the fourth header byte (`k = 3`) is the most significant byte of EXPECTED. -/
theorem setHeaderByte_three_getLsbD (e : Word) (b : Byte) {i : Nat} (hi : i < 32) :
    (setHeaderByte e 3 b).getLsbD i = if 24 ≤ i then b.getLsbD (i - 24) else e.getLsbD i := by
  rw [setHeaderByte_getLsbD e 3 b i hi]
  simp only [Nat.reduceMul, Nat.reduceAdd, hi, and_true]

/-- PUSH in HEADER with three header bytes received: the byte is recorded and the body begins. -/
theorem exec_push_fourth {s : State} (b : Byte) {c : Word} (hp : s.phase = .header) (h : s.hdrCnt.toNat = 3)
    (hc : startCursor s.keyLen (s.recordHeaderByte b).expected = some c) :
    exec (.push b) s = .next ((s.recordHeaderByte b).beginBody c) := by
  rw [exec_push_header b hp, pushHeader_fourth b h hc]

/-- Settles O17: the completed EXPECTED is `setHeaderByte s.expected 3 b`, and R8's bounds give its start cursor. -/
theorem fourthHeaderByteBeginsTheBody : Obligations.FourthHeaderByteBeginsTheBody := by
  intro s b hp h hlen₁ hlen₂
  obtain ⟨c, hc, hmod⟩ := startCursor_exists (s.recordHeaderByte b).expected hlen₁ hlen₂
  refine ⟨(s.recordHeaderByte b).expected, c, ?_, hmod, fun i hi => ?_⟩
  · rw [exec_push_fourth b hp h hc, ← State.recordHeaderByte_hdrCnt_of_three b h]
    rfl
  · rw [State.recordHeaderByte_expected, h]
    exact setHeaderByte_three_getLsbD s.expected b hi

end Sys2Proof.Machine
end

section
/-! PROOFS. What a command can do when it goes on, as one relation with a named case per effect: `exec_next_cases` with its error entries
grouped by cause (R106). Proofs about the whole command set split along it. -/

namespace Sys2Proof.Machine

/-- R106: why command `i` raises error kind `e` in state `s`, where no digest has been captured first. -/
inductive ErrorCause (s : State) : Instr → ErrKind → Prop
  /-- R107. -/
  | truncated (hp : s.phase = .header) : ErrorCause s .endCmd .truncatedHeader
  /-- R109. -/
  | hostFailed (hp : s.phase ≠ .idle) (he : s.phase ≠ .doneErr) : ErrorCause s .abort .ioFailure
  /-- R111. -/
  | full (b : Byte) (hp : s.phase = .body) (hf : s.outLen = s.outCap) : ErrorCause s (.push b) .capacityExceeded
  /-- R110: PUSH where no job is open. -/
  | strayPush (b : Byte) (hp : s.phase = .idle ∨ s.phase = .doneOk) : ErrorCause s (.push b) .protocolError
  /-- R110: END where no job is open. -/
  | strayEnd (hp : s.phase = .idle ∨ s.phase = .doneOk) : ErrorCause s .endCmd .protocolError
  /-- R110: ABORT where there is nothing to abort. -/
  | strayAbort (hp : s.phase = .idle) : ErrorCause s .abort .protocolError
  /-- R93. -/
  | reserved (op : Byte) (he : s.phase ≠ .doneErr) : ErrorCause s (.reserved op) .protocolError

/-- R114: no cause raises an error in DONE_ERR. -/
theorem ErrorCause.phase_ne {s : State} {i : Instr} {e : ErrKind} (h : ErrorCause s i e) : s.phase ≠ .doneErr := by
  cases h with
  | truncated hp => simp [hp]
  | hostFailed hp he => exact he
  | full b hp hf => simp [hp]
  | strayPush b hp => rcases hp with hp | hp <;> simp [hp]
  | strayEnd hp => rcases hp with hp | hp <;> simp [hp]
  | strayAbort hp => simp [hp]
  | reserved op he => exact he

/-- R106, R112: a cause raises an error, and never the host's code 4. -/
theorem ErrorCause.kind_ne {s : State} {i : Instr} {e : ErrKind} (h : ErrorCause s i e) :
    e ≠ .none ∧ e ≠ .unrecognizedExtension := by
  cases h <;> decide

/-- The effects a command can have when it goes on. -/
inductive Transition (s : State) : Instr → State → Prop
  /-- R88. -/
  | nop : Transition s .nop s
  /-- R114: the first error of a job is kept. -/
  | errorKept (i : Instr) (hp : s.phase = .doneErr) (hi : i ≠ .start) : Transition s i s
  /-- R89. -/
  | start : Transition s .start s.openJob
  /-- R90: a header byte before the fourth. -/
  | headerByte (b : Byte) (hp : s.phase = .header) (hc : s.hdrCnt.toNat < 3) :
    Transition s (.push b) (s.recordHeaderByte b)
  /-- R90: the fourth header byte. -/
  | lastHeaderByte (b : Byte) (c : Word) (hp : s.phase = .header) (hc : s.hdrCnt.toNat = 3)
    (hs : startCursor s.keyLen (s.recordHeaderByte b).expected = some c) :
    Transition s (.push b) ((s.recordHeaderByte b).beginBody c)
  /-- R90: a payload byte that fits. -/
  | payloadByte (b k : Byte) (hp : s.phase = .body) (hr : s.outLen < s.outCap)
    (hk : keyRead s.keyRom s.cursor.toNat = some k) :
    Transition s (.push b)
      (State.advance (rev8 (b ^^^ k)) (nextCursor s.keyLen s.cursor.toNat) (s.appendByte (rev8 (b ^^^ k))))
  /-- R82: the verify gate matches. -/
  | gateMatch (hp : s.phase = .body) (hd : s.digest = s.expected) : Transition s .endCmd s.captureDigest.release
  /-- R82, R108: the verify gate does not match. -/
  | gateMismatch (hp : s.phase = .body) (hd : s.digest ≠ s.expected) :
    Transition s .endCmd (s.captureDigest.raise .checksumMismatch)
  /-- R113: every other error entry. -/
  | error (i : Instr) (e : ErrKind) (hc : ErrorCause s i e) : Transition s i (s.raise e)

/-- A command that answers a next state has one of these effects. -/
theorem exec_transition {i : Instr} {s t : State} (h : exec i s = .next t) : Transition s i t := by
  rcases exec_next_cases h with ⟨rfl, rfl⟩ | ⟨rfl, rfl⟩ | ⟨hp, hi, rfl⟩ | ⟨hp, hc, b, rfl, rfl⟩ | ⟨hp, hc, b, c, rfl, hs, rfl⟩ |
    ⟨hp, hf, b, rfl, rfl⟩ | ⟨hp, hr, b, k, rfl, hk, rfl⟩ | ⟨hp, ⟨b, rfl⟩, rfl⟩ | ⟨rfl, hp, rfl⟩ | ⟨rfl, hp, hd, rfl⟩ |
    ⟨rfl, hp, hd, rfl⟩ | ⟨rfl, hp, rfl⟩ | ⟨rfl, hp, rfl⟩ | ⟨rfl, hp, rfl⟩ | ⟨⟨op, rfl⟩, hp, rfl⟩
  · exact .nop
  · exact .start
  · exact .errorKept i hp hi
  · exact .headerByte b hp hc
  · exact .lastHeaderByte b c hp hc hs
  · exact .error _ _ (.full b hp hf)
  · exact .payloadByte b k hp hr hk
  · exact .error _ _ (.strayPush b hp)
  · exact .error _ _ (.truncated hp)
  · exact .gateMatch hp hd
  · exact .gateMismatch hp hd
  · exact .error _ _ (.strayEnd hp)
  · exact .error _ _ (.hostFailed (by rcases hp with hp | hp | hp <;> simp [hp]) (by rcases hp with hp | hp | hp <;> simp [hp]))
  · exact .error _ _ (.strayAbort hp)
  · exact .error _ _ (.reserved op hp)

end Sys2Proof.Machine
end

section
/-! PROOFS. The invariant of spec/10_state.md R39: it holds at reset (O34), and each effect of a command keeps it, so every step
does (O35). -/

namespace Sys2Proof.Machine

/-! ## The parameters -/

/-- R8, R34: the bounds speak of the key table alone. -/
theorem State.ParamsOk.of_keyRom {s t : State} (h : s.ParamsOk) (hk : t.keyRom = s.keyRom) : t.ParamsOk where
  romDense := hk ▸ h.romDense
  lenPos := by simpa [State.keyLen, hk] using h.lenPos
  lenMax := by simpa [State.keyLen, hk] using h.lenMax

/-- R8: `1 <= L <= 2^32 - 1`, whatever the parameter is. -/
theorem Config.keyLen_bounds : 1 ≤ Config.keyLen ∧ Config.keyLen ≤ 4294967295 :=
  ⟨Nat.succ_pos _, Config.keyLenPred.isLt⟩

theorem State.reset_keyLen : State.reset.keyLen = Config.keyLen := by
  simp [State.keyLen, State.reset]

theorem State.reset_paramsOk : State.reset.ParamsOk where
  romDense := Memory.ofBytes_dense _
  lenPos := State.reset_keyLen ▸ Config.keyLen_bounds.1
  lenMax := State.reset_keyLen ▸ Config.keyLen_bounds.2

/-! ## What the invariant gives -/

/-- R39: outside BODY and DONE_OK the output buffer holds nothing. -/
theorem State.Inv.outBuf_eq_nil {s : State} (h : s.Inv) (h₁ : s.phase ≠ .body) (h₂ : s.phase ≠ .doneOk) :
    s.outBuf = [] := by
  have hlen := h.outLenEq
  rw [h.outEmpty h₁ h₂, Memory.bytes_length] at hlen
  exact List.length_eq_zero_iff.mp hlen.symm

/-- R26: a header byte in place `k` adds eight bits to the value. -/
theorem setHeaderByte_lt {e : Word} {k : Nat} (b : Byte) (h : e.toNat < 2 ^ (8 * k)) :
    (setHeaderByte e k b).toNat < 2 ^ (8 * (k + 1)) := by
  refine Nat.lt_pow_two_of_testBit _ fun i hi => ?_
  change (setHeaderByte e k b).getLsbD i = false
  by_cases hw : i < 32
  · rw [setHeaderByte_getLsbD e k b i hw, if_neg (by omega)]
    exact Nat.testBit_lt_two_pow (h.trans_le (Nat.pow_le_pow_right (by decide) (by omega)))
  · exact BitVec.getLsbD_of_ge _ _ (by omega)

/-- R27: before the fourth byte HDR_CNT counts without wrapping in its three bits. -/
theorem State.recordHeaderByte_hdrCnt_toNat {s : State} (b : Byte) (h : s.hdrCnt.toNat < 4) :
    (s.recordHeaderByte b).hdrCnt.toNat = s.hdrCnt.toNat + 1 := by
  rw [State.recordHeaderByte_hdrCnt]; bv_omega

/-- R43: with room in the buffer OUT_LEN counts a byte without wrapping. -/
theorem State.outLen_succ_toNat {s : State} (hr : s.outLen < s.outCap) : (s.outLen + 1).toNat = s.outLen.toNat + 1 := by
  bv_omega

/-- R28, R71: the next cursor is a 32-bit value. -/
theorem State.ParamsOk.nextCursor_toNat {s : State} (h : s.ParamsOk) (c : Nat) :
    (BitVec.ofNat 32 (nextCursor s.keyLen c)).toNat = nextCursor s.keyLen c := by
  have hlt := nextCursor_lt h.lenPos c
  have hmax := h.lenMax
  rw [BitVec.toNat_ofNat, Nat.mod_eq_of_lt (by omega)]

/-- R42, R43: the byte appended comes right behind the output so far. -/
theorem State.Inv.outBuf_write {s : State} (h : s.Inv) (out : Byte) :
    s.outBuf.write s.outAppendAddr out = Memory.ofBytes (s.outBuf.bytes ++ [out]) := by
  rw [State.outAppendAddr, h.outLenEq, Memory.bytes_length]
  exact h.outDense.write_end out

/-! ## Each effect keeps it -/

/-- The invariant does not speak of what the host still presents. -/
theorem State.Inv.withHost {s : State} (h : s.Inv) (l : List PortInput) : (s.withHost l).Inv :=
  { h with params := h.params.of_keyRom rfl }

/-- R120, R89: both columns of the reset table meet the invariant. -/
theorem State.fresh_inv {s : State} {ph : Phase} (h : s.ParamsOk) (hp : ph = .idle ∨ ph = .header) : (s.fresh ph).Inv where
  params := h.of_keyRom rfl
  cursorLt := h.lenPos
  hdrLe := by simp
  hdrHeader := by simp
  hdrDone := by rcases hp with rfl | rfl <;> simp
  hdrBits := by simp
  outDense := rfl
  outLenEq := rfl
  outLenLe := by simp
  outEmpty := by simp
  errIff := by rcases hp with rfl | rfl <;> simp
  errCore := by simp
  ckBody := by rcases hp with rfl | rfl <;> simp
  ckFresh := by simp
  cursorAt := by rcases hp with rfl | rfl <;> simp
  cursorNew := by simp
  actualNew := by simp
  verified := by rcases hp with rfl | rfl <;> simp
  idleEmpty := by simp

/-- R113: of the state an error entry meets, only the parameters, CURSOR, HDR_CNT and EXPECTED matter. -/
theorem State.raise_inv {s : State} {e : ErrKind} (hparams : s.ParamsOk) (hcursor : s.cursor.toNat < s.keyLen)
    (hcnt : s.hdrCnt.toNat ≤ 4) (hbits : s.expected.toNat < 2 ^ (8 * s.hdrCnt.toNat))
    (he : e ≠ .none ∧ e ≠ .unrecognizedExtension) : (s.raise e).Inv where
  params := hparams.of_keyRom rfl
  cursorLt := hcursor
  hdrLe := hcnt
  hdrHeader := by simp
  hdrDone := by simp
  hdrBits := hbits
  outDense := rfl
  outLenEq := rfl
  outLenLe := by simp
  outEmpty := by simp
  errIff := by simpa using he.1
  errCore := he.2
  ckBody := by simp
  ckFresh := by simp
  cursorAt := by simp
  cursorNew := by simp
  actualNew := by simp
  verified := by simp
  idleEmpty := by simp

/-- R90: a header byte before the fourth. -/
theorem State.Inv.recordHeaderByte {s : State} (h : s.Inv) (b : Byte) (hp : s.phase = .header) (hc : s.hdrCnt.toNat < 3) :
    (s.recordHeaderByte b).Inv :=
  have hcnt := State.recordHeaderByte_hdrCnt_toNat b (show s.hdrCnt.toNat < 4 by omega)
  { h with
    params := h.params.of_keyRom rfl
    hdrLe := by omega
    hdrHeader := fun _ => by omega
    hdrDone := by simp [hp]
    hdrBits := by rw [hcnt]; exact setHeaderByte_lt b h.hdrBits
    cursorAt := by simp [hp]
    verified := by simp [hp]
    idleEmpty := by simp [hp] }

/-- R90, R28: the fourth header byte puts the cursor at the start of its trajectory. -/
theorem State.Inv.beginBody {s : State} (h : s.Inv) (b : Byte) {c : Word} (hp : s.phase = .header)
    (hc : s.hdrCnt.toNat = 3) (hs : startCursor s.keyLen (s.recordHeaderByte b).expected = some c) :
    ((s.recordHeaderByte b).beginBody c).Inv := by
  obtain ⟨hpos, -, hcursor⟩ := startCursor_eq_some hs
  have hcnt : ((s.recordHeaderByte b).beginBody c).hdrCnt.toNat = 4 := by
    rw [State.beginBody_hdrCnt, State.recordHeaderByte_hdrCnt_of_three b hc]
    rfl
  have hlen : s.outLen = 0 := h.outEmpty (by simp [hp]) (by simp [hp])
  have hbuf : s.outBuf = [] := h.outBuf_eq_nil (by simp [hp]) (by simp [hp])
  exact { h with
    params := h.params.of_keyRom rfl
    cursorLt := hcursor ▸ Nat.mod_lt _ hpos
    hdrLe := hcnt.le
    hdrHeader := by simp
    hdrDone := fun _ => hcnt
    hdrBits := by rw [hcnt]; exact BitVec.isLt _
    outEmpty := by simp
    errIff := by simpa [hp] using h.errIff
    ckBody := fun _ => by simp [hbuf, rcFold]
    ckFresh := by simp
    cursorAt := fun _ => by simp [hlen, hcursor]
    cursorNew := by simp
    actualNew := fun _ => h.actualNew (by simp [hp])
    verified := by simp
    idleEmpty := by simp }

/-- R43, R68, R80: a payload byte lengthens the output, its digest and the trajectory by one. -/
theorem State.Inv.payloadByte {s : State} (h : s.Inv) (out : Byte) (hp : s.phase = .body) (hr : s.outLen < s.outCap) :
    (State.advance out (nextCursor s.keyLen s.cursor.toNat) (s.appendByte out)).Inv := by
  have hlen := State.outLen_succ_toNat hr
  have hcursor := h.params.nextCursor_toNat s.cursor.toNat
  have hbuf := h.outBuf_write out
  exact { h with
    params := h.params.of_keyRom rfl
    cursorLt := by simpa [hcursor] using nextCursor_lt h.params.lenPos _
    outDense := by simp [hbuf]
    outLenEq := hlen.trans (by simp [hbuf, h.outLenEq])
    outLenLe := hlen.trans_le hr
    outEmpty := by simp [hp]
    ckBody := fun _ => by
      rw [State.advance_outBuf, State.appendByte_outBuf, hbuf, Memory.ofBytes_bytes, rcFold_append]
      exact congrArg (s.prim.update · out) (h.ckBody (.inl hp))
    ckFresh := by simp [hp]
    cursorAt := fun _ => hcursor.trans <| by
      rw [nextCursor, h.cursorAt (.inl hp), Nat.mod_add_mod, Nat.add_assoc, ← hlen]
      rfl
    cursorNew := by simp [hp]
    verified := by simp [hp] }

/-- R82: a digest that matches is in ACTUAL when the output is released. -/
theorem State.Inv.release {s : State} (h : s.Inv) (hp : s.phase = .body) (hd : s.digest = s.expected) :
    s.captureDigest.release.Inv :=
  { h with
    params := h.params.of_keyRom rfl
    hdrHeader := by simp
    hdrDone := fun _ => h.hdrDone (.inl hp)
    outEmpty := by simp
    errIff := by simpa [hp] using h.errIff
    ckBody := fun _ => h.ckBody (.inl hp)
    ckFresh := by simp
    cursorAt := fun _ => h.cursorAt (.inl hp)
    cursorNew := by simp
    actualNew := by simp
    verified := fun _ => ⟨hd, hd⟩
    idleEmpty := by simp }

/-! ## Commands and steps -/

/-- R39: every command that answers a next state keeps the invariant. -/
theorem exec_keeps_inv {i : Instr} {s t : State} (h : s.Inv) (hx : exec i s = .next t) : t.Inv := by
  cases exec_transition hx with
  | nop => exact h
  | errorKept => exact h
  | start => exact State.fresh_inv h.params (.inr rfl)
  | headerByte b hp hc => exact h.recordHeaderByte b hp hc
  | lastHeaderByte b c hp hc hs => exact h.beginBody b hp hc hs
  | payloadByte b k hp hr hk => exact h.payloadByte _ hp hr
  | gateMatch hp hd => exact h.release hp hd
  | gateMismatch hp hd =>
    exact State.raise_inv (h.params.of_keyRom rfl) h.cursorLt h.hdrLe h.hdrBits (by decide)
  | error _ e hc => exact State.raise_inv h.params h.cursorLt h.hdrLe h.hdrBits hc.kind_ne

/-- Settles O34: the reset state is the IDLE column of the reset table over the parameters, which R8 bounds. -/
theorem invariantHoldsAtReset : Obligations.InvariantHoldsAtReset :=
  show (State.reset.fresh .idle).Inv from State.fresh_inv State.reset_paramsOk (.inl rfl)

/-- Settles O35: silence and reset keep the invariant, and so does each effect of a command. -/
theorem stepKeepsTheInvariant : Obligations.StepKeepsTheInvariant := by
  intro s t h hs
  rcases step_next hs with ⟨-, rfl⟩ | ⟨p, rest, -, ⟨-, rfl⟩ | ⟨-, rfl⟩ | ⟨w, -, hx⟩⟩
  · exact h
  · exact h.withHost rest
  · exact State.fresh_inv (h.withHost rest).params (.inl rfl)
  · exact exec_keeps_inv (h.withHost rest) hx

end Sys2Proof.Machine
end

section
/-! PROOFS. Frames of the whole command set: who enters each phase (O28), who writes each register (O32), and what no step writes
(O33). Each splits along the effects of a command. -/

namespace Sys2Proof.Machine

/-- Settles O28: each effect of a command leads to one phase, and each cause of an error is one of R106's. -/
theorem whoEntersEachPhase : Obligations.WhoEntersEachPhase := by
  intro s t i h
  cases exec_transition h with
  | nop => simp +contextual
  | start => simp
  | errorKept _ hp hi => simp [hp]
  | headerByte b hp hc => simp [hp, hc]
  | lastHeaderByte b c hp hc hs => simp [hp, hc]
  | payloadByte b k hp hr hk => simp [hp]
  | gateMatch hp hd => simp [hp, hd]
  | gateMismatch hp hd => simp [hp, hd]
  | error _ e hc =>
    refine ⟨by simp, by simp, by simp, by simp, fun _ => .inr ⟨hc.phase_ne, ?_⟩⟩
    cases hc with
    | truncated hp => simp [hp]
    | hostFailed hp he => simp [hp]
    | full b hp hf => simp [hp, hf]
    | strayPush b hp => simp [hp]
    | strayEnd hp => simp [hp]
    | strayAbort hp => simp [hp]
    | reserved op he => simp

/-- A store is seen at its own address only. -/
theorem Memory.eq_of_read_write_ne {m : Memory} {a x : Nat} {b : Byte} (h : (m.write a b).read x ≠ m.read x) : x = a :=
  by_contra fun hx => h (Memory.read_write_other m b hx)

/-- Settles O32: each effect of a command writes the registers its rule names. -/
theorem whoWritesEachRegister : Obligations.WhoWritesEachRegister := by
  intro s t i h
  cases exec_transition h with
  | nop => simp
  | start => simp
  | errorKept _ hp hi => simp
  | headerByte b hp hc => simp [hp]
  | lastHeaderByte b c hp hc hs => simp [hp, hc]
  | payloadByte b k hp hr hk => simpa [hp] using fun a => Memory.eq_of_read_write_ne
  | gateMatch hp hd => simp [hp]
  | gateMismatch hp hd => simp [hp]
  | error _ e hc => simp [hc.phase_ne]

/-- Settles O33: neither silence nor reset writes the build, and no command does. -/
theorem noStepWritesTheKeyRom : Obligations.NoStepWritesTheKeyRom := by
  intro s t h
  rcases step_next h with ⟨-, rfl⟩ | ⟨p, rest, -, ⟨-, rfl⟩ | ⟨-, rfl⟩ | ⟨w, -, hx⟩⟩
  · exact ⟨rfl, rfl, rfl⟩
  · exact ⟨rfl, rfl, rfl⟩
  · exact ⟨rfl, rfl, rfl⟩
  · obtain ⟨hrom, hcap, hrc, -⟩ := exec_keeps_build hx
    exact ⟨hrom, hcap, hrc⟩

end Sys2Proof.Machine
end

section
/-! PROOFS. PUSH in HEADER before the fourth byte (O16), and the stops of PUSH in states that no run reaches (O29, log entry 5). -/

namespace Sys2Proof.Machine

/-- A header byte before the fourth is recorded. -/
theorem exec_push_early {s : State} (b : Byte) (hp : s.phase = .header) (hc : s.hdrCnt.toNat < 3) :
    exec (.push b) s = .next (s.recordHeaderByte b) := by
  rw [exec_push_header b hp, pushHeader_early b hc]

/-- Settles O16: the byte is recorded by `setHeaderByte`, which writes bits `[8k+7 : 8k]` only. -/
theorem pushTakesAHeaderByte : Obligations.PushTakesAHeaderByte := by
  intro s b hp hc
  refine ⟨setHeaderByte s.expected s.hdrCnt.toNat b, ?_, setHeaderByte_getLsbD s.expected s.hdrCnt.toNat b⟩
  rw [exec_push_early b hp hc]
  rfl

/-- R41: a cursor outside the key table stops a payload byte that the capacity check lets through. -/
theorem pushBody_cursor_out_of_range {s : State} (b : Byte) (hf : s.outLen ≠ s.outCap) (hc : s.keyLen ≤ s.cursor.toNat) :
    pushBody b s = .fault .keyIndexOutOfRange := by
  simp [pushBody, hf, transform, keyRead_out_of_range hc]

/-- R43: an output longer than its capacity stops a payload byte at the append. -/
theorem pushBody_over_capacity {s : State} (b : Byte) (hd : s.keyRom.dense) (hc : s.cursor.toNat < s.keyLen)
    (ho : s.outCap < s.outLen) : pushBody b s = .fault .outAppendPrecondition := by
  have hne : s.outLen ≠ s.outCap := by bv_omega
  have hno : ¬ s.outLen < s.outCap := by bv_omega
  simp only [pushBody, if_neg hne, transform, keyRead_dense hd hc, State.outAppend, if_neg hno]

/-- R27: HDR_CNT past 3 stops a header byte. -/
theorem pushHeader_count_out_of_range {s : State} (b : Byte) (hc : 4 ≤ s.hdrCnt.toNat) :
    pushHeader b s = .fault .headerCountOutOfRange :=
  if_pos hc

/-- A key table of a length R8 excludes gives no start cursor. -/
theorem startCursor_eq_none {len : Nat} (e : Word) (h : len = 0 ∨ 4294967295 < len) : startCursor len e = none :=
  if_neg (by omega)

/-- Log entry 5: such a key table stops the fourth header byte. -/
theorem pushHeader_keyLen_out_of_range {s : State} (b : Byte) (hc : s.hdrCnt.toNat = 3)
    (hl : s.keyLen = 0 ∨ 4294967295 < s.keyLen) : pushHeader b s = .fault .keyLenOutOfRange := by
  simp [pushHeader, hc, startCursor_eq_none _ hl]

/-- Settles O29: each of the four stops in its phase. -/
theorem neverProducedValuesFault : Obligations.NeverProducedValuesFault := by
  refine ⟨fun s b hp hf hc => ?_, fun s b hp hc => ?_, fun s b hp hc hl => ?_, fun s b hp hd hc ho => ?_⟩
  · rw [exec_push_body b hp, pushBody_cursor_out_of_range b hf hc]
  · rw [exec_push_header b hp, pushHeader_count_out_of_range b hc]
  · rw [exec_push_header b hp, pushHeader_keyLen_out_of_range b hc hl]
  · rw [exec_push_body b hp, pushBody_over_capacity b hd hc ho]

end Sys2Proof.Machine
end

section
/-! PROOFS. The register read port (spec/10_state.md R21 to R33): what it gives at each address (O39), right after reset (O11), the
fields of STATUS (O38), and DIGEST under the invariant (O37). -/

namespace Sys2Proof.Machine

/-! ## One read each -/

theorem State.regRead_status (s : State) : s.regRead 0x0 = s.statusWord := rfl
theorem State.regRead_expected (s : State) : s.regRead 0x1 = s.expected := rfl
theorem State.regRead_hdrCnt (s : State) : s.regRead 0x2 = s.hdrCnt.setWidth 32 := rfl
theorem State.regRead_cursor (s : State) : s.regRead 0x3 = s.cursor := rfl
theorem State.regRead_digest (s : State) : s.regRead 0x4 = s.digest := rfl
theorem State.regRead_actual (s : State) : s.regRead 0x5 = s.actual := rfl
theorem State.regRead_outLen (s : State) : s.regRead 0x6 = s.outLen := rfl
theorem State.regRead_keyLen (s : State) : s.regRead 0x7 = BitVec.ofNat 32 s.keyLen := rfl

/-- R33: the reserved addresses. -/
theorem State.regRead_reserved (s : State) {addr : BitVec 4} (h : 0x8 ≤ addr.toNat) : s.regRead addr = 0 := by
  unfold State.regRead
  split
  case h_9 => rfl
  all_goals omega

/-- R27: HDR_CNT shows all of its three bits. -/
theorem State.regRead_hdrCnt_toNat (s : State) : (s.regRead 0x2).toNat = s.hdrCnt.toNat := by
  rw [State.regRead_hdrCnt, BitVec.toNat_setWidth_of_le (by decide)]

/-- R32: KEY_LEN shows all of `L`, which fits 32 bits by R8. -/
theorem State.regRead_keyLen_toNat {s : State} (h : s.keyLen ≤ 4294967295) : (s.regRead 0x7).toNat = s.keyLen := by
  rw [State.regRead_keyLen, BitVec.toNat_ofNat, Nat.mod_eq_of_lt (by omega)]

/-- Settles O39: one read each, HDR_CNT widened from three bits and KEY_LEN cut to 32. -/
theorem registerMapReads : Obligations.RegisterMapReads := fun s hlen =>
  ⟨s.regRead_expected, s.regRead_hdrCnt_toNat, s.regRead_cursor, s.regRead_digest, s.regRead_actual, s.regRead_outLen,
    State.regRead_keyLen_toNat hlen, fun _ => s.regRead_reserved⟩

/-- R38: the key ROM holds `KEY` at the addresses `0 .. L-1`. -/
theorem State.reset_keyRom_read {i : Nat} (h : i < Config.keyLen) :
    State.reset.keyRom.read i = some (Config.keyByte i) := by
  rw [State.reset, Memory.ofBytes_read]
  simp [h]

/-- Settles O11: the reset values, read one register at a time. -/
theorem resetStateReadsAsTheTable : Obligations.ResetStateReadsAsTheTable := by
  have hlen : State.reset.keyLen ≤ 4294967295 := State.reset_paramsOk.lenMax
  exact ⟨rfl, rfl, rfl, rfl, rfl, rfl, rfl, (State.regRead_keyLen_toNat hlen).trans State.reset_keyLen, rfl,
    fun _ => State.reset_keyRom_read⟩

/-! ## STATUS -/

/-- R22 to R25: each bit of STATUS, by the field it lies in. -/
theorem State.statusWord_getLsbD (s : State) (i : Nat) : s.statusWord.getLsbD i =
    if i < 3 then s.phase.code.getLsbD i
    else if i < 4 then false
    else if i < 8 then s.err.code.getLsbD (i - 4)
    else if i = 8 then s.outValid
    else false := by
  simp only [State.statusWord, BitVec.getLsbD_append]
  by_cases h₃ : i < 3
  · simp [h₃]
  · by_cases h₄ : i < 4
    · simp [show i = 3 by omega]
    · by_cases h₈ : i < 8
      · simp [h₃, h₄, h₈, show ¬ i - 3 < 1 by omega, show i - 3 - 1 = i - 4 by omega, show i - 4 < 4 by omega]
      · by_cases h : i = 8
        · simp [h]
        · simp [h₃, h₄, h₈, h, show ¬ i - 3 < 1 by omega, show ¬ i - 3 - 1 < 4 by omega, show ¬ i - 3 - 1 - 4 < 1 by omega]

/-- R22: PHASE, bits `[2:0]`. -/
theorem State.statusWord_phase (s : State) : s.statusWord.extractLsb' 0 3 = s.phase.code :=
  BitVec.extractLsb'_append_eq_right

/-- R23: ERR, bits `[7:4]`. -/
theorem State.statusWord_err (s : State) : s.statusWord.extractLsb' 4 4 = s.err.code := by
  refine BitVec.eq_of_getLsbD_eq fun i hi => ?_
  rw [BitVec.getLsbD_extractLsb', s.statusWord_getLsbD, if_neg (by omega), if_neg (by omega), if_pos (by omega),
    Nat.add_sub_cancel_left, decide_eq_true hi, Bool.true_and]

/-- R24: OUT_VALID is an image of PHASE. -/
theorem State.outValid_iff (s : State) : s.outValid = true ↔ s.phase = .doneOk := by
  simp [State.outValid]

/-- Settles O38: the fields as R22 to R24 place them, and every other bit 0. -/
theorem statusFields : Obligations.StatusFields := by
  intro s
  simp only [State.regRead_status, State.statusWord_phase, State.statusWord_err, State.statusWord_getLsbD]
  refine ⟨?_, rfl, ?_, s.outValid_iff, fun i hi => ?_⟩
  · cases s.phase <;> rfl
  · cases s.err <;> rfl
  · rw [if_neg (by omega), if_neg (by omega), if_neg (by omega), if_neg (by omega)]

/-! ## DIGEST -/

/-- Settles O37: the invariant's two clauses on CK, through `RC.digest`. -/
theorem digestIsOfTheOutput : Obligations.DigestIsOfTheOutput := by
  intro s h
  refine ⟨fun hp => ⟨h.ckBody hp, ?_⟩, fun hp => ?_⟩
  · rw [State.regRead_digest, State.digest, h.ckBody hp, rcDigestOf]
  · rw [State.regRead_digest, State.digest, h.ckFresh hp, rcDigestOf, rcFold, List.foldl_nil]

end Sys2Proof.Machine
end

section
/-! PROOFS. Runs of a job up to its END: the header (O50) and the payload (O59). Each command of a run is one effect that keeps the
invariant, so what R39 says of a state in BODY is read off at the end of the run. -/

namespace Sys2Proof.Machine

/-! ## Runs, one command at a time -/

theorem decode_encode_push (b : Byte) : decode (encode (.push b)) = .push b := by
  simp [encode, decode]

theorem runCommands_start (is : List Instr) (s : State) : runCommands (.start :: is) s = runCommands is s.openJob := by
  rw [runCommands_cons, show decode (encode .start) = .start by decide, exec_start]

theorem runCommands_push {b : Byte} {s t : State} (is : List Instr) (h : exec (.push b) s = .next t) :
    runCommands (.push b :: is) s = runCommands is t := by
  rw [runCommands_cons, decode_encode_push, h]

/-! ## The header -/

/-- R46: four header bytes put in place one after another are the little-endian value. -/
theorem setHeaderByte_four (h0 h1 h2 h3 : Byte) :
    setHeaderByte (setHeaderByte (setHeaderByte (setHeaderByte 0 0 h0) 1 h1) 2 h2) 3 h3 = headerValue h0 h1 h2 h3 := by
  refine BitVec.eq_of_getLsbD_eq fun i hi => ?_
  simp only [setHeaderByte_getLsbD _ _ _ i hi, headerValue, BitVec.getLsbD_or, BitVec.getLsbD_shiftLeft,
    BitVec.getLsbD_setWidth, hi, show i - 8 < 32 by omega, show i - 16 < 32 by omega, show i - 24 < 32 by omega]
  by_cases h₁ : i < 8
  · simp [h₁, show i < 16 by omega, show i < 24 by omega, show ¬ 8 ≤ i by omega, show ¬ 16 ≤ i by omega,
      show ¬ 24 ≤ i by omega]
  · have hb0 : h0.getLsbD i = false := BitVec.getLsbD_of_ge _ _ (by omega)
    by_cases h₂ : i < 16
    · simp [h₁, h₂, show i < 24 by omega, show 8 ≤ i by omega, show ¬ 16 ≤ i by omega, show ¬ 24 ≤ i by omega]
    · have hb1 : h1.getLsbD (i - 8) = false := BitVec.getLsbD_of_ge _ _ (by omega)
      by_cases h₃ : i < 24
      · simp [h₁, h₂, h₃, hb0, hb1, show 16 ≤ i by omega, show ¬ 24 ≤ i by omega]
      · have hb2 : h2.getLsbD (i - 16) = false := BitVec.getLsbD_of_ge _ _ (by omega)
        simp [h₁, h₂, h₃, hb0, hb1, hb2, show 24 ≤ i by omega]

/-- The state START and four header bytes leave: BODY, with the cursor at the start of its trajectory. -/
def State.afterHeader (h0 h1 h2 h3 : Byte) (s : State) : State :=
  State.beginBody (BitVec.ofNat 32 ((headerValue h0 h1 h2 h3).toNat % s.keyLen))
    ((((s.openJob.recordHeaderByte h0).recordHeaderByte h1).recordHeaderByte h2).recordHeaderByte h3)

theorem State.afterHeader_expected (s : State) (h0 h1 h2 h3 : Byte) :
    (s.afterHeader h0 h1 h2 h3).expected = headerValue h0 h1 h2 h3 :=
  setHeaderByte_four h0 h1 h2 h3

/-- R28: the start cursor of a completed header. -/
theorem State.ParamsOk.startCursor_header {s : State} (h : s.ParamsOk) (h0 h1 h2 h3 : Byte) :
    startCursor s.keyLen (setHeaderByte (setHeaderByte (setHeaderByte (setHeaderByte 0 0 h0) 1 h1) 2 h2) 3 h3) =
      some (BitVec.ofNat 32 ((headerValue h0 h1 h2 h3).toNat % s.keyLen)) := by
  rw [setHeaderByte_four]
  exact startCursor_of_bounds _ h.lenPos h.lenMax

/-- R94: neither START nor a header byte stops, whatever job ran before. -/
theorem runCommands_header {s : State} (h : s.ParamsOk) (h0 h1 h2 h3 : Byte) (is : List Instr) :
    runCommands (.start :: .push h0 :: .push h1 :: .push h2 :: .push h3 :: is) s =
      runCommands is (s.afterHeader h0 h1 h2 h3) := by
  calc
    _ = runCommands (.push h0 :: .push h1 :: .push h2 :: .push h3 :: is) s.openJob := runCommands_start _ _
    _ = runCommands (.push h1 :: .push h2 :: .push h3 :: is) (s.openJob.recordHeaderByte h0) :=
      runCommands_push _ (exec_push_early h0 rfl (by simp))
    _ = runCommands (.push h2 :: .push h3 :: is) ((s.openJob.recordHeaderByte h0).recordHeaderByte h1) :=
      runCommands_push _ (exec_push_early h1 rfl (by simp))
    _ = runCommands (.push h3 :: is) (((s.openJob.recordHeaderByte h0).recordHeaderByte h1).recordHeaderByte h2) :=
      runCommands_push _ (exec_push_early h2 rfl (by simp))
    _ = runCommands is (s.afterHeader h0 h1 h2 h3) :=
      runCommands_push _ (exec_push_fourth h3 rfl rfl (h.startCursor_header h0 h1 h2 h3))

/-- R39: the body begins with the invariant. -/
theorem State.ParamsOk.afterHeader_inv {s : State} (h : s.ParamsOk) (h0 h1 h2 h3 : Byte) :
    (s.afterHeader h0 h1 h2 h3).Inv := by
  have i0 : s.openJob.Inv := State.fresh_inv h (.inr rfl)
  have i1 := i0.recordHeaderByte h0 rfl (by simp)
  have i2 := i1.recordHeaderByte h1 rfl (by simp)
  have i3 := i2.recordHeaderByte h2 rfl (by simp)
  exact i3.beginBody h3 rfl rfl (h.startCursor_header h0 h1 h2 h3)

/-- R28, R46: the cursor the header gives. -/
theorem State.ParamsOk.afterHeader_cursor {s : State} (h : s.ParamsOk) (h0 h1 h2 h3 : Byte) :
    (s.afterHeader h0 h1 h2 h3).cursor.toNat = (headerValue h0 h1 h2 h3).toNat % s.keyLen := by
  obtain ⟨-, -, hc⟩ := startCursor_eq_some (h.startCursor_header h0 h1 h2 h3)
  rwa [setHeaderByte_four] at hc

/-- Settles O50: the run is the header's, and its end state is `State.afterHeader`. -/
theorem headerIsLittleEndian : Obligations.HeaderIsLittleEndian := by
  intro s h0 h1 h2 h3 h
  have he := s.afterHeader_expected h0 h1 h2 h3
  exact ⟨(s.afterHeader h0 h1 h2 h3).withHost [], runCommands_header h h0 h1 h2 h3 [], he, rfl,
    (h.afterHeader_cursor h0 h1 h2 h3).trans (by rw [State.withHost_expected, he]), rfl, rfl, rfl⟩

/-! ## The payload -/

theorem transformSeq_cons (key : List Byte) (b : Byte) (p : List Byte) (c : Nat) :
    transformSeq key (b :: p) c = rev8 (b ^^^ key.getD (c % key.length) 0) :: transformSeq key p (c + 1) := by
  simp [transformSeq, Nat.add_assoc, Nat.add_comm 1]

/-- R71: the closed form depends on the start cursor modulo `L` only. -/
theorem transformSeq_mod (key p : List Byte) (c : Nat) : transformSeq key p (c % key.length) = transformSeq key p c := by
  simp [transformSeq]

@[simp] theorem transformSeq_length (key p : List Byte) (c : Nat) : (transformSeq key p c).length = p.length := by
  simp [transformSeq]

/-- R90 in BODY, under the invariant: the byte is taken with the key byte at the cursor. -/
theorem State.Inv.exec_push_room {s : State} (h : s.Inv) (b : Byte) (hp : s.phase = .body) (hr : s.outLen < s.outCap) :
    exec (.push b) s = .next (State.advance (rev8 (b ^^^ s.keyRom.bytes.getD s.cursor.toNat 0))
      (nextCursor s.keyLen s.cursor.toNat) (s.appendByte (rev8 (b ^^^ s.keyRom.bytes.getD s.cursor.toNat 0)))) := by
  rw [exec_push_body b hp, pushBody_room b hr (keyRead_dense h.params.romDense h.cursorLt)]

/-- R39's fifth line, R73: a payload that fits lengthens the output by its transform, and the invariant says the rest. -/
theorem runCommands_payload {s : State} (p : List Byte) (h : s.Inv) (hp : s.phase = .body)
    (hfit : s.outLen.toNat + p.length ≤ s.outCap.toNat) :
    ∃ t, runCommands (asmFeed p) s = .next t ∧ t.Inv ∧ t.phase = .body ∧ t.expected = s.expected ∧
      t.keyLen = s.keyLen ∧ t.prim = s.prim ∧
      t.outBuf.bytes = s.outBuf.bytes ++ transformSeq s.keyRom.bytes p s.cursor.toNat := by
  induction p generalizing s with
  | nil => exact ⟨s.withHost [], rfl, h.withHost [], hp, rfl, rfl, rfl, by simp [transformSeq]⟩
  | cons b p ih =>
    rw [List.length_cons] at hfit
    have hr : s.outLen < s.outCap := by bv_omega
    have hlen := State.outLen_succ_toNat hr
    have hx := h.exec_push_room b hp hr
    generalize hout : rev8 (b ^^^ s.keyRom.bytes.getD s.cursor.toNat 0) = out at hx
    obtain ⟨t, hrun, hinv, hphase, hexp, hkey, hprim, hbytes⟩ :=
      ih (h.payloadByte out hp hr) hp (show (s.outLen + 1).toNat + p.length ≤ s.outCap.toNat by omega)
    refine ⟨t, (runCommands_push _ hx).trans hrun, hinv, hphase, hexp, hkey, hprim, ?_⟩
    have hL : s.keyLen = s.keyRom.bytes.length := s.keyRom.bytes_length.symm
    have hc : s.cursor.toNat % s.keyRom.bytes.length = s.cursor.toNat := Nat.mod_eq_of_lt (hL ▸ h.cursorLt)
    have hnext : transformSeq s.keyRom.bytes p (BitVec.ofNat 32 (nextCursor s.keyLen s.cursor.toNat)).toNat =
        transformSeq s.keyRom.bytes p (s.cursor.toNat + 1) := by
      rw [h.params.nextCursor_toNat, nextCursor, hL, transformSeq_mod]
    calc t.outBuf.bytes
      _ = (s.outBuf.write s.outAppendAddr out).bytes ++
          transformSeq s.keyRom.bytes p (BitVec.ofNat 32 (nextCursor s.keyLen s.cursor.toNat)).toNat := hbytes
      _ = s.outBuf.bytes ++ [out] ++ transformSeq s.keyRom.bytes p (s.cursor.toNat + 1) := by
        rw [h.outBuf_write, Memory.ofBytes_bytes, hnext]
      _ = s.outBuf.bytes ++ transformSeq s.keyRom.bytes (b :: p) s.cursor.toNat := by
        rw [transformSeq_cons, hc, hout, List.append_assoc, List.singleton_append]

/-- Settles O59: the header, then the payload; the registers are read off the invariant in BODY. -/
theorem bodyHoldsTheTransformedPayload : Obligations.BodyHoldsTheTransformedPayload := by
  intro s h0 h1 h2 h3 p o h hfit ho
  obtain ⟨t, hrun, hinv, hphase, hexp, hkey, hprim, hbytes⟩ :=
    runCommands_payload p (h.afterHeader_inv h0 h1 h2 h3) rfl (show 0 + p.length ≤ s.outCap.toNat by omega)
  have hexp : t.expected = headerValue h0 h1 h2 h3 := hexp.trans (s.afterHeader_expected h0 h1 h2 h3)
  have hbytes : t.outBuf.bytes = o := by rw [hbytes, h.afterHeader_cursor, ho]; rfl
  have hlen : t.outLen.toNat = p.length := by rw [hinv.outLenEq, hbytes, ho, transformSeq_length]
  refine ⟨t, (runCommands_header h h0 h1 h2 h3 (asmFeed p)).trans hrun, hphase, ?_, hexp, ?_, ?_, hlen, ?_, ?_, ?_⟩
  · exact hinv.errIff.mpr (by simp [hphase])
  · exact BitVec.eq_of_toNat_eq (hinv.hdrDone (.inl hphase))
  · exact hbytes ▸ hinv.outDense
  · exact hbytes ▸ hprim ▸ hinv.ckBody (.inl hphase)
  · rw [hinv.cursorAt (.inl hphase), hexp, hkey, hlen, Nat.mod_add_mod]
    rfl
  · exact hinv.actualNew (by simp [hphase])

end Sys2Proof.Machine
end

section
/-! PROOFS. PUSH of a payload byte that fits (O18, R90 in BODY), and what PUSH leaves alone (O30). -/

namespace Sys2Proof.Machine

/-- R66: bit `i` of a reversed byte is bit `7 - i` of the byte. -/
theorem rev8_getLsbD (b : Byte) {i : Nat} (hi : i < 8) : (rev8 b).getLsbD i = b.getLsbD (7 - i) := by
  simp only [rev8, BitVec.getLsbD_append, BitVec.getLsbD_extractLsb']
  interval_cases i <;> simp

/-- PUSH in BODY with room in the buffer and the cursor on a key byte. -/
theorem exec_push_room {s : State} (b : Byte) {k : Byte} (hp : s.phase = .body) (hr : s.outLen < s.outCap)
    (hk : keyRead s.keyRom s.cursor.toNat = some k) :
    exec (.push b) s = .next (State.advance (rev8 (b ^^^ k)) (nextCursor s.keyLen s.cursor.toNat)
      (s.appendByte (rev8 (b ^^^ k)))) := by
  rw [exec_push_body b hp, pushBody_room b hr hk]

/-- R8, R9: a key table of these lengths, laid out from address 0, is one the parameters allow. -/
theorem State.ParamsOk.of_key {s : State} {key : List Byte} (hrom : s.keyRom = Memory.ofBytes key)
    (hpos : 1 ≤ key.length) (hmax : key.length ≤ 4294967295) : s.ParamsOk where
  romDense := hrom ▸ Memory.ofBytes_dense key
  lenPos := by rwa [State.keyLen, hrom, Memory.ofBytes_length]
  lenMax := by rwa [State.keyLen, hrom, Memory.ofBytes_length]

/-- Settles O18: the output byte is `rev8 (b ^^^ KEY[CURSOR])`, appended and then digested. -/
theorem pushTransformsAPayloadByte : Obligations.PushTransformsAPayloadByte := by
  intro s b key hp hrom hlen hc hr
  have hk : keyRead s.keyRom s.cursor.toNat = some (key.getD s.cursor.toNat 0) := hrom ▸ keyRead_ofBytes hc
  have hL : s.keyLen = key.length := by rw [State.keyLen, hrom, Memory.ofBytes_length]
  refine ⟨_, _, exec_push_room b hp hr hk, ?_, fun i hi => rev8_getLsbD _ hi, Memory.read_write_same _ _ _⟩
  rw [(State.ParamsOk.of_key hrom (Nat.one_le_of_lt hc) hlen).nextCursor_toNat, nextCursor, hL]

/-- Settles O30: each effect of PUSH writes the fields its rule names. -/
theorem pushFrame : Obligations.PushFrame := by
  intro s t b h
  cases exec_transition h with
  | errorKept _ hp hi => simp
  | headerByte _ hp hc => simp [hp]
  | lastHeaderByte _ c hp hc hs => simp [hp]
  | payloadByte _ k hp hr hk => simpa [hp] using fun a => Memory.read_write_other s.outBuf _
  | error _ e hc =>
    have hh : s.phase ≠ .header := by
      cases hc with
      | full _ hp hf => simp [hp]
      | strayPush _ hp => rcases hp with hp | hp <;> simp [hp]
    simp [hh]

end Sys2Proof.Machine
end

section
/-! PROOFS. Several instances (R52, R118): a step of one touches no other (O56), so the order of two is unobservable (O57). -/

namespace Sys2Proof.Machine

/-- R52, R118: instance `k` steps exactly when it is there and its core does, and only its place in the system is written. -/
theorem System.stepAt_eq_next_iff {y z : System} {k : Nat} :
    System.stepAt k y = .next z ↔
      ∃ c c', y.cores[k]? = some c ∧ step c = .next c' ∧ z = { cores := y.cores.set k c' } := by
  unfold System.stepAt
  cases hc : y.cores[k]? with
  | none => simp
  | some c => cases hs : step c <;> simp [hs, eq_comm]

/-- Settles O56: the step writes place `k` of the list of cores and no other. -/
theorem instanceStepTouchesNoOther : Obligations.InstanceStepTouchesNoOther := by
  intro y z k h
  obtain ⟨c, c', hc, hs, rfl⟩ := System.stepAt_eq_next_iff.mp h
  obtain ⟨hk, -⟩ := List.getElem?_eq_some_iff.mp hc
  exact ⟨List.length_set, fun j hj => List.getElem?_set_ne hj.symm, c, c', hc, hs, List.getElem?_set_self hk⟩

/-- Settles O57: each of the two cores is the same before and after the other's step, and the two writes commute. -/
theorem instanceOrderIsUnobservable : Obligations.InstanceOrderIsUnobservable := by
  intro y y₁ y₂ j k hjk h₁ h₂
  obtain ⟨c, c', hc, hs, rfl⟩ := System.stepAt_eq_next_iff.mp h₁
  obtain ⟨d, d', hd, ht, rfl⟩ := System.stepAt_eq_next_iff.mp h₂
  have hd' : y.cores[k]? = some d := (List.getElem?_set_ne hjk).symm.trans hd
  have hc' : (y.cores.set k d')[j]? = some c := (List.getElem?_set_ne hjk.symm).trans hc
  refine ⟨_, System.stepAt_eq_next_iff.mpr ⟨d, d', hd', ht, rfl⟩,
    System.stepAt_eq_next_iff.mpr ⟨c, c', hc', hs, ?_⟩⟩
  rw [List.set_comm _ _ hjk]

end Sys2Proof.Machine
end

section
/-! PROOFS. The pseudo-command DECODE (O5, R64): HDR writes the four bytes of the header value, least significant first (R46). -/

namespace Sys2Proof.Machine

/-- The byte at bits `[o+7 : o]` of a word, back at its place, is the word's bits there and 0 elsewhere. -/
theorem byteInPlace_getLsbD (v : Word) (o : Nat) {i : Nat} (hi : i < 32) :
    ((v.extractLsb' o 8).setWidth 32 <<< o).getLsbD i = (decide (o ≤ i ∧ i < o + 8) && v.getLsbD i) := by
  rw [BitVec.getLsbD_shiftLeft, BitVec.getLsbD_setWidth, BitVec.getLsbD_extractLsb']
  by_cases ho : o ≤ i
  · simp [hi, ho, show ¬ i < o by omega, show i - o < 32 by omega, show o + (i - o) = i by omega,
      show i - o < 8 ↔ i < o + 8 by omega]
  · simp [ho, show i < o by omega]

/-- R46: a word is the little-endian value of its four bytes, since each of its bits lies in one of them. -/
theorem headerValue_bytes (v : Word) :
    headerValue (v.extractLsb' 0 8) (v.extractLsb' 8 8) (v.extractLsb' 16 8) (v.extractLsb' 24 8) = v := by
  refine BitVec.eq_of_getLsbD_eq fun i hi => ?_
  have h0 := byteInPlace_getLsbD v 0 hi
  rw [BitVec.shiftLeft_zero] at h0
  rw [headerValue, BitVec.getLsbD_or, BitVec.getLsbD_or, BitVec.getLsbD_or, h0, byteInPlace_getLsbD v 8 hi,
    byteInPlace_getLsbD v 16 hi, byteInPlace_getLsbD v 24 hi, ← Bool.and_or_distrib_right, ← Bool.and_or_distrib_right,
    ← Bool.and_or_distrib_right, ← Bool.decide_or, ← Bool.decide_or, ← Bool.decide_or, decide_eq_true (by omega),
    Bool.true_and]

/-- Settles O5: the four bytes are those HDR pushes. -/
theorem decodePseudoCommandIsContainer : Obligations.DecodePseudoCommandIsContainer :=
  fun v _ => ⟨v.extractLsb' 0 8, v.extractLsb' 8 8, v.extractLsb' 16 8, v.extractLsb' 24 8, rfl, (headerValue_bytes v).symm⟩

end Sys2Proof.Machine
end

section
/-! PROOFS. The decoder as one relation with a named case per row of the opcode map (R58, R61); from it the two round trips of the
encoder (O2, O3) and the words written out from the map (O1). -/

namespace Sys2Proof

/-- R58: which command a word stands for, by its two fields. -/
inductive StandsFor (w : CmdWord) : Instr → Prop
  /-- OP 0x00. -/
  | nop (hop : opField w = 0x00) : StandsFor w .nop
  /-- OP 0x01. -/
  | start (hop : opField w = 0x01) : StandsFor w .start
  /-- OP 0x02, the one command that reads DATA (R57). -/
  | push (b : Byte) (hop : opField w = 0x02) (hdata : dataField w = b) : StandsFor w (.push b)
  /-- OP 0x03. -/
  | endCmd (hop : opField w = 0x03) : StandsFor w .endCmd
  /-- OP 0x04. -/
  | abort (hop : opField w = 0x04) : StandsFor w .abort
  /-- OP 0x05 to 0xFF (R59). -/
  | reserved (op : Byte) (hop : opField w = op) (hres : 0x05 ≤ op.toNat) : StandsFor w (.reserved op)

/-- R61: the decoder is total, and what it gives is what the opcode map says. -/
theorem standsFor_decode (w : CmdWord) : StandsFor w (decode w) := by
  unfold decode
  split
  next h => exact .nop (BitVec.eq_of_toNat_eq h)
  next h => exact .start (BitVec.eq_of_toNat_eq h)
  next h => exact .push _ (BitVec.eq_of_toNat_eq h) rfl
  next h => exact .endCmd (BitVec.eq_of_toNat_eq h)
  next h => exact .abort (BitVec.eq_of_toNat_eq h)
  case h_6 =>
    simp only [imp_false] at *
    exact .reserved _ rfl (by omega)

/-- R61: a word stands for no command but the one the decoder gives. -/
theorem StandsFor.decode_eq {w : CmdWord} {i : Instr} (h : StandsFor w i) : decode w = i := by
  cases h with
  | nop hop => rw [decode, hop]; rfl
  | start hop => rw [decode, hop]; rfl
  | push b hop hdata => rw [decode, hop, hdata]; rfl
  | endCmd hop => rw [decode, hop]; rfl
  | abort hop => rw [decode, hop]; rfl
  | reserved op hop hres =>
    unfold decode
    rw [hop]
    split
    case h_6 => rfl
    all_goals omega

/-- R57, R58: the assembler's word of a well-formed command stands for it. -/
theorem standsFor_encode {i : Instr} (h : i.wellFormed = true) : StandsFor (encode i) i := by
  cases i with
  | nop => exact .nop (opField_cmdWord 0x00 0x00)
  | start => exact .start (opField_cmdWord 0x01 0x00)
  | push b => exact .push b (opField_cmdWord 0x02 b) (dataField_cmdWord 0x02 b)
  | endCmd => exact .endCmd (opField_cmdWord 0x03 0x00)
  | abort => exact .abort (opField_cmdWord 0x04 0x00)
  | reserved op => exact .reserved op (opField_cmdWord op 0x00) (of_decide_eq_true h)

/-- R57: the assembler keeps the OP of a word, and the DATA byte where the command has an operand. -/
theorem StandsFor.encode_eq {w : CmdWord} {i : Instr} (h : StandsFor w i) :
    encode i = if i.mnemonic = .PUSH then w else cmdWord (opField w) 0x00 := by
  cases h with
  | nop hop => rw [hop]; rfl
  | start hop => rw [hop]; rfl
  | push b hop hdata =>
    calc cmdWord 0x02 b
      _ = cmdWord (opField w) (dataField w) := by rw [hop, hdata]
      _ = w := cmdWord_fields w
  | endCmd hop => rw [hop]; rfl
  | abort hop => rw [hop]; rfl
  | reserved op hop hres => rw [hop]; rfl

/-- Settles O2: the word of a well-formed command stands for it, and the decoder gives what a word stands for. -/
theorem decodeEncodeRoundTrip : Obligations.DecodeEncodeRoundTrip :=
  fun _ h => (standsFor_encode h).decode_eq

/-- Settles O3: the word stands for its decoding, whose word is the OP with the DATA that PUSH alone keeps. -/
theorem encodeDecodeKeepsEveryUsedBit : Obligations.EncodeDecodeKeepsEveryUsedBit :=
  fun w => (standsFor_decode w).encode_eq

/-- Settles O1: the eleven words, evaluated. -/
theorem writtenWordsDecode : Obligations.WrittenWordsDecode := by
  unfold Obligations.WrittenWordsDecode; decide

end Sys2Proof
end

section
/-! PROOFS. The opcode table against the decoder (O4, R61): every word selects one row and no second, and the OP alone decides. -/

namespace Sys2Proof

/-! ## Rows -/

/-- R56, R58: every mask of the table leaves DATA out. -/
theorem opcodeTable_mask_ignores_data : ∀ r ∈ opcodeTable, r.mask = cmdWord (opField r.mask) 0x00 := by decide

/-- R61: a row is selected by OP alone. -/
theorem selects_congr_opField {r : OpcodeRow} (hr : r ∈ opcodeTable) {w w' : CmdWord} (h : opField w = opField w') :
    r.selects w = r.selects w' := by
  have hmask (v : CmdWord) : v &&& r.mask = cmdWord (opField v &&& opField r.mask) 0x00 := by
    calc v &&& r.mask
      _ = cmdWord (opField v) (dataField v) &&& cmdWord (opField r.mask) 0x00 := by
        rw [cmdWord_fields, ← opcodeTable_mask_ignores_data r hr]
      _ = cmdWord (opField v &&& opField r.mask) (dataField v &&& 0x00) := BitVec.and_append
      _ = cmdWord (opField v &&& opField r.mask) 0x00 := congrArg (cmdWord _) BitVec.and_zero
  rw [OpcodeRow.selects, OpcodeRow.selects, hmask w, hmask w', h]

/-- R58: two rows that agree on the bits both look at are one row. -/
theorem opcodeTable_rows_disjoint :
    ∀ r ∈ opcodeTable, ∀ r' ∈ opcodeTable, r'.pattern &&& r.mask = r.pattern &&& r'.mask → r' = r := by decide

/-- R61: no word selects two rows, for on the bits both rows look at both patterns are the word's. -/
theorem selected_row_unique {r r' : OpcodeRow} (hr : r ∈ opcodeTable) (hr' : r' ∈ opcodeTable) {w : CmdWord}
    (h : r.selects w = true) (h' : r'.selects w = true) : r' = r := by
  have hw : w &&& r.mask = r.pattern := beq_iff_eq.mp h
  have hw' : w &&& r'.mask = r'.pattern := beq_iff_eq.mp h'
  refine opcodeTable_rows_disjoint r hr r' hr' ?_
  rw [← hw, ← hw', BitVec.and_assoc, BitVec.and_assoc, BitVec.and_comm r'.mask]

/-- R58: the word of a well-formed command selects a row of its mnemonic. -/
theorem encode_selects_row (i : Instr) : Laws.EncodingRow.Statement i := by
  cases i with
  | nop => exact Laws.EncodingRow.nop
  | start => exact Laws.EncodingRow.start
  | push b => exact Laws.EncodingRow.push b
  | endCmd => exact Laws.EncodingRow.endCmd
  | abort => exact Laws.EncodingRow.abort
  | reserved op => exact Laws.EncodingRow.reserved op

/-! ## Commands -/

/-- R59, R61: a word stands for well-formed commands only. -/
theorem StandsFor.wellFormed {w : CmdWord} {i : Instr} (h : StandsFor w i) : i.wellFormed = true := by
  cases h with
  | reserved op hop hres => exact decide_eq_true hres
  | _ => rfl

/-- R57: the assembler's word of a command has the OP of every word that stands for it. -/
theorem StandsFor.opField_encode {w : CmdWord} {i : Instr} (h : StandsFor w i) : opField (encode i) = opField w := by
  rw [h.encode_eq]
  split
  · rfl
  · exact opField_cmdWord _ _

/-- R58: a word selects a row of the mnemonic of the command it stands for. -/
theorem StandsFor.exists_row {w : CmdWord} {i : Instr} (h : StandsFor w i) :
    ∃ r ∈ opcodeTable, r.selects w = true ∧ r.mnemonic = i.mnemonic := by
  obtain ⟨r, hr, hsel, hm⟩ := encode_selects_row i h.wellFormed
  exact ⟨r, hr, (selects_congr_opField hr h.opField_encode.symm).trans hsel, hm⟩

/-- R57, R61: the operand of PUSH apart, a word stands for what every word of its OP stands for. -/
theorem StandsFor.congr_opField {w w' : CmdWord} {i : Instr} (h : StandsFor w i) (hw : opField w' = opField w) :
    (i.mnemonic = .PUSH ∧ StandsFor w' (.push (dataField w'))) ∨ (i.mnemonic ≠ .PUSH ∧ StandsFor w' i) := by
  cases h with
  | nop hop => exact .inr ⟨nofun, .nop (hw.trans hop)⟩
  | start hop => exact .inr ⟨nofun, .start (hw.trans hop)⟩
  | push b hop hdata => exact .inl ⟨rfl, .push _ (hw.trans hop) rfl⟩
  | endCmd hop => exact .inr ⟨nofun, .endCmd (hw.trans hop)⟩
  | abort hop => exact .inr ⟨nofun, .abort (hw.trans hop)⟩
  | reserved op hop hres => exact .inr ⟨nofun, .reserved op (hw.trans hop) hres⟩

theorem StandsFor.push_data {w : CmdWord} {b : Byte} (h : StandsFor w (.push b)) : b = dataField w := by
  cases h with
  | push b hop hdata => exact hdata.symm

theorem StandsFor.reserved_op {w : CmdWord} {op : Byte} (h : StandsFor w (.reserved op)) : op = opField w := by
  cases h with
  | reserved op hop hres => exact hop.symm

/-- R61: one OP, one mnemonic. -/
theorem decode_mnemonic_congr_opField {w w' : CmdWord} (hw : opField w' = opField w) :
    (decode w').mnemonic = (decode w).mnemonic := by
  rcases (standsFor_decode w).congr_opField hw with ⟨hm, h⟩ | ⟨-, h⟩
  · rw [h.decode_eq, hm]; rfl
  · rw [h.decode_eq]

/-- R57, R61: one OP, one command, where the command has no operand. -/
theorem decode_congr_opField {w w' : CmdWord} (hw : opField w' = opField w) (hne : (decode w).mnemonic ≠ .PUSH) :
    decode w' = decode w := by
  rcases (standsFor_decode w).congr_opField hw with ⟨hm, -⟩ | ⟨-, h⟩
  · exact absurd hm hne
  · exact h.decode_eq

/-- Settles O4: the row of the command the word stands for, and no other. -/
theorem everyWordIsExactlyOneCommand : Obligations.EveryWordIsExactlyOneCommand := by
  intro w
  have h := standsFor_decode w
  obtain ⟨r, hr, hsel, hm⟩ := h.exists_row
  exact ⟨⟨r, hr, hsel, hm, fun r' hr' hsel' => selected_row_unique hr hr' hsel hsel'⟩, h.wellFormed,
    fun b hb => (hb ▸ h).push_data, fun op hop => (hop ▸ h).reserved_op,
    fun w' => decode_mnemonic_congr_opField, fun w' => decode_congr_opField⟩

end Sys2Proof
end

section
/-! PROOFS. The assembler's text (O6, R63): a byte's two hexadecimal digits are read back, and a comment is never read. -/

namespace Sys2Proof.Machine

/-! ## The digits of a byte -/

/-- Each of the sixteen digits is read as its value, in base 16. -/
theorem hexDigit_hexChar : ∀ n < 16, hexDigit (hexChar n) = some n := by decide

/-- A digit does not end a word. -/
theorem hexChar_not_separator : ∀ n < 16, ¬ (hexChar n = ' ' ∨ hexChar n = '\t') := by decide

/-- A digit does not start a comment. -/
theorem comment_ne_hexChar : ∀ n < 16, ';' ≠ hexChar n := by decide

/-- What holds of the sixteen digits holds of the two digits of a byte. -/
theorem forall_mem_hexByte {P : Char → Prop} (h : ∀ n < 16, P (hexChar n)) (b : Byte) : ∀ c ∈ hexByte b, P c := by
  have hb : b.toNat < 256 := b.isLt
  intro c hc
  rcases List.mem_pair.mp hc with rfl | rfl
  · exact h _ (by omega)
  · exact h _ (by omega)

/-- Log entry 10: two hexadecimal digits behind `0x` are the byte. -/
theorem parseByte_hexByte (b : Byte) : parseByte ('0' :: 'x' :: hexByte b) = some b := by
  have hb : b.toNat < 256 := b.isLt
  have hhi := hexDigit_hexChar (b.toNat / 16) (by omega)
  have hlo := hexDigit_hexChar (b.toNat % 16) (by omega)
  have hdigits : parseDigits 16 0 (hexByte b) = some b.toNat := by
    simp only [hexByte, parseDigits, hhi, hlo, if_pos (show b.toNat / 16 < 16 by omega),
      if_pos (show b.toNat % 16 < 16 by omega)]
    congr 1
    omega
  simp only [parseByte, hdigits, if_pos (show b.toNat ≤ 255 by omega), BitVec.ofNat_toNat, BitVec.setWidth_eq]

/-! ## Lines -/

/-- Log entry 10: without a separator the word being read goes on to the end of the line. -/
theorem lineWords_of_no_separator {w cur : List Char} (h : ∀ c ∈ w, ¬ (c = ' ' ∨ c = '\t')) (hne : cur ≠ []) :
    lineWords w cur = [cur.reverse ++ w] := by
  induction w generalizing cur with
  | nil => simp [lineWords, hne]
  | cons c w ih =>
    obtain ⟨hc, hw⟩ := List.forall_mem_cons.mp h
    rw [lineWords, if_neg hc, ih hw (List.cons_ne_nil c cur), List.reverse_cons, List.append_assoc, List.singleton_append]

/-- The line of PUSH has two words. -/
theorem lineWords_push (b : Byte) : lineWords (['P', 'U', 'S', 'H', ' ', '0', 'x'] ++ hexByte b) [] =
    [['P', 'U', 'S', 'H'], '0' :: 'x' :: hexByte b] := by
  calc lineWords (['P', 'U', 'S', 'H', ' ', '0', 'x'] ++ hexByte b) []
    _ = ['P', 'U', 'S', 'H'] :: lineWords (hexByte b) ['x', '0'] := rfl
    _ = [['P', 'U', 'S', 'H'], '0' :: 'x' :: hexByte b] := by
      rw [lineWords_of_no_separator (forall_mem_hexByte hexChar_not_separator b) (List.cons_ne_nil _ _)]
      rfl

/-- No command's text holds the comment sign. -/
theorem commandText_no_comment {i : Instr} {text : List Char} (h : commandText i = some text) : ';' ∉ text := by
  cases i with
  | push b =>
    injection h with h
    subst h
    have hdigits : ';' ∉ hexByte b := fun hc => forall_mem_hexByte comment_ne_hexChar b _ hc rfl
    exact fun hc => (List.mem_append.mp hc).elim (by decide) hdigits
  | reserved op => cases h
  | _ => injection h with h; subst h; decide

/-- R63: a line without the comment sign is read to its end. -/
theorem takeWhile_of_no_comment {text : List Char} (h : ';' ∉ text) : text.takeWhile (· ≠ ';') = text :=
  List.takeWhile_eq_self_iff.mpr fun _ hc => decide_eq_true (ne_of_mem_of_not_mem hc h)

/-- R63: a comment behind a line is not read. -/
theorem parseLine_append_comment {text : List Char} (h : ';' ∉ text) (comment : List Char) :
    parseLine (text ++ ';' :: comment) = parseLine text := by
  have hcut : (text ++ ';' :: comment).takeWhile (· ≠ ';') = text.takeWhile (· ≠ ';') := by
    rw [List.takeWhile_append, takeWhile_of_no_comment h, if_pos rfl, List.takeWhile_cons_of_neg (by decide),
      List.append_nil]
  rw [parseLine, hcut, parseLine]

/-- R63: a command's text is read back as the command. -/
theorem parseLine_commandText {i : Instr} {text : List Char} (h : commandText i = some text) :
    parseLine text = some [i] := by
  cases i with
  | push b =>
    have hcut := takeWhile_of_no_comment (commandText_no_comment h)
    injection h with h
    subst h
    rw [parseLine, hcut, lineWords_push]
    simp only [parseByte_hexByte]
  | reserved op => cases h
  | _ => injection h with h; subst h; decide

/-- Settles O6: the text is read back, and the comment behind it is cut off first. -/
theorem commandTextReadsBack : Obligations.CommandTextReadsBack := by
  intro i text comment h
  exact ⟨parseLine_commandText h,
    (parseLine_append_comment (commandText_no_comment h) comment).trans (parseLine_commandText h)⟩

end Sys2Proof.Machine
end

section
/-! PROOFS. A command word presented to the core is what its next step runs (O8, R65, log entry 4). -/

namespace Sys2Proof.Machine

/-- R97: with a command word presented next, the step is that command on the state behind it. -/
theorem step_ofCommand (s : State) (w : CmdWord) (rest : List PortInput) :
    step (s.withHost (PortInput.ofCommand w :: rest)) = exec (decode w) (s.withHost rest) := by
  rw [step_presented (State.withHost_host s _), PortInput.event_ofCommand, State.withHost_withHost]

/-- Settles O8: the word is placed in front of what the host was to present, whole in 16 bits. -/
theorem placedWordRunsNext : Obligations.PlacedWordRunsNext := by
  intro s w
  rw [State.withFetchWord, tableWord_toNat, step_ofCommand, State.withHost_host_self]

end Sys2Proof.Machine
end

section
/-! PROOFS. The bit reversal (O44, O45): every law is one about single bits, since bit `i` of a reversed byte is bit `7 - i` of the byte
(R66). -/

namespace Sys2Proof.Machine

/-- Settles O44: `rev8_getLsbD`. -/
theorem rev8ReversesAllBits : Obligations.Rev8ReversesAllBits :=
  fun b _ hi => rev8_getLsbD b hi

/-- R67: mirroring the bits twice puts each back. -/
theorem rev8_involutive : Function.Involutive rev8 := by
  intro b
  refine BitVec.eq_of_getLsbD_eq fun i hi => ?_
  rw [rev8_getLsbD _ hi, rev8_getLsbD b (by omega), Nat.sub_sub_self (by omega)]

@[simp] theorem rev8_rev8 (b : Byte) : rev8 (rev8 b) = b := rev8_involutive b

/-- R67: the mirror image of an XOR is the XOR of the mirror images. -/
theorem rev8_xor (a b : Byte) : rev8 (a ^^^ b) = rev8 a ^^^ rev8 b := by
  refine BitVec.eq_of_getLsbD_eq fun i hi => ?_
  simp only [rev8_getLsbD _ hi, BitVec.getLsbD_xor]

/-- R67: a byte is its own reversal exactly if its bits read the same both ways. -/
theorem rev8_eq_self_iff (b : Byte) : rev8 b = b ↔ ∀ i, i < 8 → b.getLsbD i = b.getLsbD (7 - i) := by
  constructor
  · intro h i hi
    rw [← rev8_getLsbD b hi, h]
  · intro h
    refine BitVec.eq_of_getLsbD_eq fun i hi => ?_
    rw [rev8_getLsbD b hi, h i hi]

/-- R67: the sixteen fixed points, by looking at each of the 256 bytes. -/
theorem rev8_eq_self_iff_mem : ∀ b : Byte, rev8 b = b ↔ b ∈ ([0x00, 0x18, 0x24, 0x3C, 0x42, 0x5A, 0x66, 0x7E, 0x81, 0x99, 0xA5,
    0xBD, 0xC3, 0xDB, 0xE7, 0xFF] : List Byte) := by decide

/-- Settles O45: an involution is a bijection. -/
theorem rev8Laws : Obligations.Rev8Laws :=
  ⟨rev8_rev8, rev8_xor, rev8_involutive.bijective, rev8_eq_self_iff_mem⟩

end Sys2Proof.Machine
end

section
/-! PROOFS. The transform on a key table laid out from address 0: one byte (O46, O47), its inverse (O48), a whole payload (O49), and the
probe port that shows it (O43). -/

namespace Sys2Proof.Machine

/-! ## One byte -/

/-- R68: the transform at a cursor in range. -/
theorem transform_ofBytes {key : List Byte} (b : Byte) {c : Nat} (h : c < key.length) :
    transform (Memory.ofBytes key) b c = some (rev8 (b ^^^ key.getD c 0), nextCursor key.length c) :=
  transform_eq_some.mpr ⟨_, keyRead_ofBytes h, rfl, by rw [Memory.ofBytes_length]⟩

/-- R70: from `L` on the transform has no result. -/
theorem transform_out_of_range {key : List Byte} (b : Byte) {c : Nat} (h : key.length ≤ c) :
    transform (Memory.ofBytes key) b c = none := by
  rw [transform, keyRead_out_of_range (by rwa [Memory.ofBytes_length])]

/-- R71: the cursor wraps at the last key byte only. -/
theorem nextCursor_of_lt {len c : Nat} (h : c < len) : nextCursor len c = if c + 1 < len then c + 1 else 0 := by
  split
  · exact Nat.mod_eq_of_lt ‹_›
  · rw [nextCursor, show c + 1 = len by omega, Nat.mod_self]

/-- Settles O47: the transform in range and out of it. -/
theorem transformOnItsDomain : Obligations.TransformOnItsDomain := by
  intro key b c
  refine ⟨fun h => ?_, transform_out_of_range b⟩
  rw [transform_ofBytes b h, nextCursor_of_lt h]

/-- Settles O46: by `rev8_xor` the two orders differ in the key byte, reversed or not, and XOR cancels the rest. -/
theorem xorComesBeforeTheReversal : Obligations.XorComesBeforeTheReversal := by
  intro key b c h
  refine ⟨_, _, transform_ofBytes b h, fun i hi => rev8_getLsbD _ hi, rev8_xor b _, ?_⟩
  rw [rev8_xor, BitVec.xor_right_inj, eq_comm, rev8_eq_self_iff]

/-! ## The encoder -/

/-- R72: the encoder at a cursor in range. -/
theorem encrypt_ofBytes {key : List Byte} (p : Byte) {c : Nat} (h : c < key.length) :
    encrypt (Memory.ofBytes key) p c = some (rev8 p ^^^ key.getD c 0) := by
  rw [encrypt, keyRead_ofBytes h]

/-- Settles O48: in either order the key byte cancels and the byte is reversed twice. -/
theorem encryptAndTransformAreInverse : Obligations.EncryptAndTransformAreInverse := by
  intro key x c h
  have hcancel (y k : Byte) : y ^^^ k ^^^ k = y := by rw [BitVec.xor_assoc, BitVec.xor_self, BitVec.xor_zero]
  refine ⟨⟨_, encrypt_ofBytes x h, ?_⟩, _, _, transform_ofBytes x h, ?_⟩
  · rw [transform_ofBytes _ h, hcancel, rev8_rev8, nextCursor]
  · rw [encrypt_ofBytes _ h, rev8_rev8, hcancel]

/-! ## A payload -/

/-- R73: byte by byte the transform gives the closed form and leaves the cursor `len(P)` positions on. -/
theorem transformRun_ofBytes {key : List Byte} (p : List Byte) {c : Nat} (h : c < key.length) :
    transformRun (Memory.ofBytes key) p c = some (transformSeq key p c, (c + p.length) % key.length) := by
  induction p generalizing c with
  | nil => simp [transformRun, transformSeq, Nat.mod_eq_of_lt h]
  | cons b p ih =>
    have hnext : nextCursor key.length c < key.length := nextCursor_lt (by omega) c
    have hseq : transformSeq key p (nextCursor key.length c) = transformSeq key p (c + 1) := transformSeq_mod key p (c + 1)
    have hlast : (nextCursor key.length c + p.length) % key.length = (c + (b :: p).length) % key.length := by
      rw [nextCursor, Nat.mod_add_mod, List.length_cons, Nat.add_assoc, Nat.add_comm 1]
    simp only [transformRun, transform_ofBytes b h, ih hnext]
    rw [hseq, hlast, transformSeq_cons, Nat.mod_eq_of_lt h]

/-- R73: byte `i` of the closed form. -/
theorem transformSeq_getD (key p : List Byte) (c : Nat) {i : Nat} (hi : i < p.length) :
    (transformSeq key p c).getD i 0 = rev8 (p.getD i 0 ^^^ key.getD ((c + i) % key.length) 0) := by
  simp [transformSeq, List.getD_eq_getElem?_getD, hi]

/-- Settles O49: the run is the closed form, read byte by byte. -/
theorem cursorTrajectory : Obligations.CursorTrajectory := by
  intro key payload c0 h
  exact ⟨transformSeq key payload c0, transformRun_ofBytes payload h, transformSeq_length _ _ _,
    fun i hi => transformSeq_getD key payload c0 hi⟩

/-! ## The probe port -/

/-- R74: the port shows a result of the transform. -/
theorem State.probe_eq_of_result {s : State} {b out : Byte} {c : Word} {next : Nat}
    (h : transform s.keyRom b c.toNat = some (out, next)) :
    s.probe b c = { out := out, next := BitVec.ofNat 32 next, ok := true } := by
  rw [State.probe, h]

/-- R74: without a result every output is 0. -/
theorem State.probe_eq_of_no_result {s : State} {b : Byte} {c : Word} (h : transform s.keyRom b c.toNat = none) :
    s.probe b c = { out := 0x00, next := 0, ok := false } := by
  rw [State.probe, h]

/-- R74: the port reads the key ROM and nothing else. -/
theorem State.probe_congr {s t : State} (h : s.keyRom = t.keyRom) (b : Byte) (c : Word) : s.probe b c = t.probe b c := by
  rw [State.probe, State.probe, h]

/-- Settles O43: the port is the transform of the key ROM; R8's bound on `L` keeps the next cursor within 32 bits. -/
theorem probePortIsTheTransform : Obligations.ProbePortIsTheTransform := by
  refine ⟨fun s t b c h => State.probe_congr h b c, fun s key b c hrom hmax => ⟨fun hc => ?_, fun hc => ?_⟩⟩
  · have hL : s.keyLen = key.length := by rw [State.keyLen, hrom, Memory.ofBytes_length]
    have hnext := (State.ParamsOk.of_key hrom (Nat.one_le_of_lt hc) hmax).nextCursor_toNat c.toNat
    rw [State.probe_eq_of_result (hrom ▸ transform_ofBytes b hc)]
    exact ⟨rfl, rfl, hL ▸ hnext⟩
  · exact State.probe_eq_of_no_result (hrom ▸ transform_out_of_range b hc)

end Sys2Proof.Machine
end

section
/-! PROOFS. A whole CONTAINER run (O51, R95): a run is cut where its job ends, and the invariant gives what the outcome does not name. -/

namespace Sys2Proof.Machine

/-! ## Runs of any commands -/

/-- One command of a run that the assembler has a word for. -/
theorem runCommands_next {i : Instr} {s t : State} (is : List Instr) (hw : i.wellFormed = true) (h : exec i s = .next t) :
    runCommands (i :: is) s = runCommands is t := by
  rw [runCommands_cons, (standsFor_encode hw).decode_eq, h]

/-- A run that goes on past its first command is a run of the others from where that one ended. -/
theorem runCommands_cons_eq_next_iff {i : Instr} {is : List Instr} {s t : State} :
    runCommands (i :: is) s = .next t ↔ ∃ u, exec (decode (encode i)) s = .next u ∧ runCommands is u = .next t := by
  rw [runCommands_cons]
  cases exec (decode (encode i)) s <;> simp

/-- What every command keeps, and what does not speak of the host's inputs, every run keeps. -/
theorem runCommands_keeps {P : State → Prop} (hhost : ∀ u, P u → P (u.withHost []))
    (hexec : ∀ i u v, P u → exec i u = .next v → P v) {is : List Instr} {s t : State} (hs : P s)
    (h : runCommands is s = .next t) : P t := by
  induction is generalizing s with
  | nil =>
    injection (runCommands_nil s).symm.trans h with h
    exact h ▸ hhost s hs
  | cons i is ih =>
    obtain ⟨u, hx, hrun⟩ := runCommands_cons_eq_next_iff.mp h
    exact ih (hexec _ s u hs hx) hrun

/-- R39 along a run. -/
theorem runCommands_keeps_inv {is : List Instr} {s t : State} (hs : s.Inv) (h : runCommands is s = .next t) : t.Inv :=
  runCommands_keeps (fun _ hu => hu.withHost []) (fun _ _ _ hu hx => exec_keeps_inv hu hx) hs h

/-- R34: no run changes what the core is built with. -/
theorem runCommands_keeps_build {is : List Instr} {s t : State} (h : runCommands is s = .next t) :
    t.keyRom = s.keyRom ∧ t.outCap = s.outCap ∧ t.rc = s.rc := by
  refine runCommands_keeps (P := fun u => u.keyRom = s.keyRom ∧ u.outCap = s.outCap ∧ u.rc = s.rc) (fun _ hu => hu)
    (fun i u v ⟨hkey, hcap, hrc⟩ hx => ?_) ⟨rfl, rfl, rfl⟩ h
  obtain ⟨hkey', hcap', hrc', -⟩ := exec_keeps_build hx
  exact ⟨hkey'.trans hkey, hcap'.trans hcap, hrc'.trans hrc⟩

/-- R86: a run goes on where its first part ended. -/
theorem runCommands_append {front : List Instr} {s t : State} (h : runCommands front s = .next t) (back : List Instr) :
    runCommands (front ++ back) s = runCommands back t := by
  induction front generalizing s with
  | nil =>
    injection (runCommands_nil s).symm.trans h with h
    rw [← h, List.nil_append, runCommands, runCommands, State.withHost_withHost]
  | cons i front ih =>
    obtain ⟨u, hx, hrun⟩ := runCommands_cons_eq_next_iff.mp h
    rw [List.cons_append, runCommands_cons, hx]
    exact ih hrun

/-- R88: a run is the run of its commands other than NOP. -/
theorem runCommands_filter_nop (is : List Instr) (s : State) :
    runCommands (is.filter fun i => decide (i ≠ .nop)) s = runCommands is s := by
  induction is generalizing s with
  | nil => rfl
  | cons i is ih =>
    by_cases hi : i = .nop
    · subst hi
      rw [List.filter_cons_of_neg (by decide), ih, runCommands_next is rfl (exec_nop s)]
    · rw [List.filter_cons_of_pos (by simpa using hi), runCommands_cons, runCommands_cons]
      simp only [ih]

/-- R114: in DONE_ERR every command but START keeps the state. -/
theorem exec_error_kept {i : Instr} {s : State} (hp : s.phase = .doneErr) (hi : i ≠ .start) : exec i s = .next s := by
  cases i with
  | nop => rfl
  | start => exact absurd rfl hi
  | push b => rw [exec_push_outside b (by simp [hp]) (by simp [hp]), if_pos hp]
  | endCmd => simp only [exec_end, hp]
  | abort => simp only [exec_abort, hp]
  | reserved op => rw [exec_reserved, if_pos hp]

/-- R114: the error of a job outlasts the rest of its commands. -/
theorem runCommands_error_kept {is : List Instr} {s : State} (hp : s.phase = .doneErr)
    (h : ∀ i ∈ is, i.wellFormed = true ∧ i ≠ .start) : runCommands is s = .next (s.withHost []) := by
  induction is with
  | nil => rfl
  | cons i is ih =>
    obtain ⟨⟨hw, hi⟩, his⟩ := List.forall_mem_cons.mp h
    rw [runCommands_next is hw (exec_error_kept hp hi), ih his]

/-! ## Outcomes (R103) -/

theorem State.jobOutcome_eq_ok_iff {s : State} {o : List Byte} :
    s.jobOutcome = some (.ok o) ↔ s.phase = .doneOk ∧ s.outBuf.bytes = o := by
  unfold State.jobOutcome
  cases s.phase with
  | doneErr => cases s.err <;> simp
  | _ => simp

theorem State.jobOutcome_eq_mismatch_iff {s : State} {e a : Word} :
    s.jobOutcome = some (.mismatch e a) ↔
      s.phase = .doneErr ∧ s.err = .checksumMismatch ∧ s.expected = e ∧ s.actual = a := by
  unfold State.jobOutcome
  cases s.phase with
  | doneErr => cases s.err <;> simp
  | _ => simp

theorem State.jobOutcome_eq_error_iff {s : State} {k : ErrKind} (hk : k ≠ .checksumMismatch) :
    s.jobOutcome = some (.error k) ↔ s.phase = .doneErr ∧ s.err = k := by
  unfold State.jobOutcome
  cases s.phase with
  | doneErr => cases s.err <;> simp [hk.symm]
  | _ => simp

/-! ## Where the job of a container ends -/

/-- R64, R89: the job of a container runs on the state START leaves. -/
theorem runCommands_container_open (c : List Byte) (s : State) :
    runCommands (asmContainer c) s = runCommands (asmFeed c ++ [Instr.endCmd]) s.openJob :=
  runCommands_start _ s

/-- R107: without a whole header the core is still in HEADER when END comes. -/
theorem runCommands_short_header {s : State} (c : List Byte) (hp : s.phase = .header)
    (hc : s.hdrCnt.toNat + c.length < 4) : ∃ t, runCommands (asmFeed c) s = .next t ∧ t.phase = .header := by
  induction c generalizing s with
  | nil => exact ⟨s.withHost [], rfl, hp⟩
  | cons b c ih =>
    rw [List.length_cons] at hc
    have hcnt := State.recordHeaderByte_hdrCnt_toNat (s := s) b (by omega)
    obtain ⟨t, hrun, ht⟩ := ih (s := s.recordHeaderByte b) hp (by omega)
    exact ⟨t, (runCommands_push _ (exec_push_early b hp (by omega))).trans hrun, ht⟩

/-- R95, R107: a container shorter than a header. -/
theorem runCommands_container_short (s : State) {c : List Byte} (hc : c.length < 4) :
    ∃ t, runCommands (asmContainer c) s = .next t ∧ t.jobOutcome = some (.error .truncatedHeader) := by
  obtain ⟨u, hrun, hu⟩ := runCommands_short_header (s := s.openJob) c rfl (by simpa using hc)
  have hend : exec .endCmd u = .next (u.raise .truncatedHeader) := by simp only [exec_end, hu]
  refine ⟨(u.raise .truncatedHeader).withHost [], ?_, (State.jobOutcome_eq_error_iff (by decide)).mpr ⟨rfl, rfl⟩⟩
  calc runCommands (asmContainer c) s
    _ = runCommands (asmFeed c ++ [Instr.endCmd]) s.openJob := runCommands_container_open c s
    _ = runCommands [.endCmd] u := runCommands_append hrun _
    _ = runCommands [] (u.raise .truncatedHeader) := runCommands_next [] rfl hend

/-- R95, R111: the byte that does not fit ends the job, and what comes after it changes nothing. -/
theorem runCommands_container_long {s : State} (h : s.ParamsOk) (h0 h1 h2 h3 : Byte) {p : List Byte}
    (hlong : s.outCap.toNat < p.length) :
    ∃ t, runCommands (asmContainer (h0 :: h1 :: h2 :: h3 :: p)) s = .next t ∧
      t.jobOutcome = some (.error .capacityExceeded) := by
  obtain ⟨front, b, back, rfl, hfront⟩ : ∃ front b back, p = front ++ b :: back ∧ front.length = s.outCap.toNat :=
    ⟨p.take s.outCap.toNat, p[s.outCap.toNat], p.drop (s.outCap.toNat + 1), by simp, by simp; omega⟩
  obtain ⟨u, hrun, hu, -, -, -, -, hlen, -⟩ :=
    bodyHoldsTheTransformedPayload s h0 h1 h2 h3 front _ h hfront.le rfl
  obtain ⟨-, hcap, -⟩ := runCommands_keeps_build hrun
  have hfull : u.outLen = u.outCap := BitVec.eq_of_toNat_eq (by rw [hlen, hfront, hcap])
  have hpush : exec (.push b) u = .next (u.raise .capacityExceeded) := by rw [exec_push_body b hu, pushBody_full b hfull]
  have hrest : ∀ i ∈ asmFeed back ++ [Instr.endCmd], i.wellFormed = true ∧ i ≠ .start := by
    intro i hi
    rcases List.mem_append.mp hi with hi | hi
    · obtain ⟨b', -, rfl⟩ := List.mem_map.mp hi
      exact ⟨rfl, nofun⟩
    · obtain rfl := List.mem_singleton.mp hi
      exact ⟨rfl, nofun⟩
  refine ⟨(u.raise .capacityExceeded).withHost [], ?_, (State.jobOutcome_eq_error_iff (by decide)).mpr ⟨rfl, rfl⟩⟩
  calc runCommands (asmContainer (h0 :: h1 :: h2 :: h3 :: (front ++ b :: back))) s
    _ = runCommands (.start :: asmFeed (h0 :: h1 :: h2 :: h3 :: front) ++ .push b :: (asmFeed back ++ [Instr.endCmd])) s := by
      simp [asmContainer, asmFeed]
    _ = runCommands (.push b :: (asmFeed back ++ [Instr.endCmd])) u := runCommands_append hrun _
    _ = runCommands (asmFeed back ++ [Instr.endCmd]) (u.raise .capacityExceeded) := runCommands_push _ hpush
    _ = .next ((u.raise .capacityExceeded).withHost []) := runCommands_error_kept rfl hrest

/-- R82, R95: a payload that fits comes to the verify gate, which decides. -/
theorem runCommands_container_gate {s : State} (h : s.ParamsOk) (h0 h1 h2 h3 : Byte) {p o : List Byte}
    (hfit : p.length ≤ s.outCap.toNat)
    (ho : o = transformSeq s.keyRom.bytes p ((headerValue h0 h1 h2 h3).toNat % s.keyLen)) :
    ∃ t, runCommands (asmContainer (h0 :: h1 :: h2 :: h3 :: p)) s = .next t ∧
      t.jobOutcome = some (if rcDigestOf s.prim o = headerValue h0 h1 h2 h3 then .ok o
        else .mismatch (headerValue h0 h1 h2 h3) (rcDigestOf s.prim o)) := by
  obtain ⟨u, hrun, hu, -, hexp, -, hbuf, -, hck, -⟩ := bodyHoldsTheTransformedPayload s h0 h1 h2 h3 p o h hfit ho
  obtain ⟨-, -, hrc⟩ := runCommands_keeps_build hrun
  have hdig : u.digest = rcDigestOf s.prim o := by rw [State.digest, State.prim, hrc, hck]; rfl
  have hend := exec_end u
  simp only [hu, hdig, hexp] at hend
  refine ⟨_, (runCommands_append hrun [.endCmd]).trans (runCommands_next [] rfl hend), ?_⟩
  split
  · exact State.jobOutcome_eq_ok_iff.mpr ⟨rfl, (congrArg Memory.bytes hbuf).trans (Memory.ofBytes_bytes o)⟩
  · exact State.jobOutcome_eq_mismatch_iff.mpr ⟨rfl, rfl, hexp, hdig⟩

/-! ## The source's decode -/

theorem sourceDecode_short (key : List Byte) (cap : Nat) (rc : Rc) {c : List Byte} (hc : c.length < 4) :
    sourceDecode key cap rc c = .error .truncatedHeader := by
  unfold sourceDecode
  split
  · simp only [List.length_cons] at hc; omega
  · rfl

/-- R95: the run of any container ends as the source's `decode` of it. -/
theorem State.ParamsOk.runCommands_container {s : State} (h : s.ParamsOk) (c : List Byte) :
    ∃ t, runCommands (asmContainer c) s = .next t ∧
      t.jobOutcome = some (sourceDecode s.keyRom.bytes s.outCap.toNat s.prim c) := by
  have hL : s.keyLen = s.keyRom.bytes.length := s.keyRom.bytes_length.symm
  match c with
  | h0 :: h1 :: h2 :: h3 :: p =>
    by_cases hlong : s.outCap.toNat < p.length
    · simpa only [sourceDecode, if_pos hlong] using runCommands_container_long h h0 h1 h2 h3 hlong
    · simpa only [sourceDecode, if_neg hlong, hL] using
        runCommands_container_gate h h0 h1 h2 h3 (Nat.le_of_not_lt hlong) rfl
  | [] | [_] | [_, _] | [_, _, _] =>
    rw [sourceDecode_short _ _ _ (by simp)]
    exact runCommands_container_short s (by simp)

/-- R39: a job ends with the invariant, whatever stood before its START. -/
theorem State.ParamsOk.container_inv {s t : State} (h : s.ParamsOk) {c : List Byte}
    (hrun : runCommands (asmContainer c) s = .next t) : t.Inv :=
  runCommands_keeps_inv (show s.openJob.Inv from State.fresh_inv h (.inr rfl)) ((runCommands_container_open c s).symm.trans hrun)

/-- Settles O51: the outcome is `sourceDecode`'s; read back, it names phase, error and registers, and the invariant the output. -/
theorem containerRunIsTheSourceDecode : Obligations.ContainerRunIsTheSourceDecode := by
  intro s c is h hfilter
  obtain ⟨t, hrun, hout⟩ := h.runCommands_container c
  have hinv := h.container_inv hrun
  refine ⟨t, by rw [← runCommands_filter_nop, hfilter, hrun], hout, fun hc => ?_, fun h0 h1 h2 h3 p e o hc he ho => ?_⟩
  · rw [sourceDecode_short _ _ _ hc, State.jobOutcome_eq_error_iff (by decide)] at hout
    obtain ⟨hp, herr⟩ := hout
    exact ⟨hp, herr, hinv.outEmpty (by simp [hp]) (by simp [hp]), hinv.outBuf_eq_nil (by simp [hp]) (by simp [hp])⟩
  · have hL : s.keyLen = s.keyRom.bytes.length := s.keyRom.bytes_length.symm
    simp only [hc, sourceDecode, ← hL, ← he, ← ho] at hout
    refine ⟨fun hlong => ?_, fun hfit hd => ?_, fun hfit hd => ?_⟩
    · rw [if_pos hlong] at hout
      exact (State.jobOutcome_eq_error_iff (by decide)).mp hout
    · rw [if_neg (Nat.not_lt.mpr hfit), if_pos hd] at hout
      obtain ⟨hp, hbytes⟩ := State.jobOutcome_eq_ok_iff.mp hout
      exact ⟨hp, hbytes ▸ hinv.outDense⟩
    · rw [if_neg (Nat.not_lt.mpr hfit), if_neg hd] at hout
      exact State.jobOutcome_eq_mismatch_iff.mp hout

end Sys2Proof.Machine
end

section
/-! PROOFS. The verify gate (O21, R82) and what every error entry keeps (O25, R113). -/

namespace Sys2Proof.Machine

/-! ## The verify gate -/

/-- R82: a digest that matches releases the output. -/
theorem exec_end_match {s : State} (hp : s.phase = .body) (hd : s.digest = s.expected) :
    exec .endCmd s = .next s.captureDigest.release := by
  rw [exec_end]
  simp only [hp, if_pos hd]

/-- R82, R108: one that does not discards it. -/
theorem exec_end_mismatch {s : State} (hp : s.phase = .body) (hd : s.digest ≠ s.expected) :
    exec .endCmd s = .next (s.captureDigest.raise .checksumMismatch) := by
  rw [exec_end]
  simp only [hp, if_neg hd]

/-- Settles O21: the digest is captured in both cases, and then the output is released or the error raised. -/
theorem verifyGateComparesDigest : Obligations.VerifyGateComparesDigest :=
  fun _ hp => ⟨exec_end_match hp, exec_end_mismatch hp⟩

/-! ## Error entries -/

/-- R113: a job that is not in DONE_ERR comes there by the error entry alone, from the state the command met or, at the verify gate,
from that state with the digest captured. -/
theorem Transition.error_entry {s t : State} {i : Instr} (h : Transition s i t) (hs : s.phase ≠ .doneErr)
    (ht : t.phase = .doneErr) :
    (∃ e, ErrorCause s i e ∧ t = s.raise e) ∨ t = s.captureDigest.raise .checksumMismatch := by
  cases h with
  | nop => exact absurd ht hs
  | errorKept _ hp => exact absurd hp hs
  | start => simp at ht
  | headerByte b hp => simp [hp] at ht
  | lastHeaderByte => simp at ht
  | payloadByte b k hp => simp [hp] at ht
  | gateMatch => simp at ht
  | gateMismatch => exact .inr rfl
  | error _ e hc => exact .inl ⟨e, hc, rfl⟩

/-- R24: after an error entry no output is valid. -/
@[simp] theorem State.raise_outValid (s : State) (e : ErrKind) : (s.raise e).outValid = false := rfl

/-- Settles O25: both error entries write ERR, PHASE and the output only, and at the gate ACTUAL is the digest. -/
theorem errorEntryKeepsTheOtherRegisters : Obligations.ErrorEntryKeepsTheOtherRegisters := by
  intro s t i h hs ht
  rcases (exec_transition h).error_entry hs ht with ⟨e, hc, rfl⟩ | rfl
  · simp [hc.kind_ne.1]
  · simp [State.digest]

end Sys2Proof.Machine
end

section
/-! PROOFS. Tampering (O52, R84): one changed payload byte changes one output byte, so a checksum that tells such outputs apart gives
another digest, and the source's `decode`, which the run follows, ends in a mismatch. -/

namespace Sys2Proof.Machine

/-- R73: the closed form of a payload in two parts; the second goes on where the cursor stands after the first. -/
theorem transformSeq_append (key p q : List Byte) (c : Nat) :
    transformSeq key (p ++ q) c = transformSeq key p c ++ transformSeq key q (c + p.length) := by
  simp [transformSeq, List.mapIdx_append, Nat.add_comm, Nat.add_left_comm]

/-- R68: at one cursor different bytes have different results. -/
theorem rev8_xor_ne {b b' : Byte} (k : Byte) (h : b ≠ b') : rev8 (b ^^^ k) ≠ rev8 (b' ^^^ k) :=
  fun he => h ((BitVec.xor_left_inj k).mp (rev8_involutive.injective he))

/-- R84: such a checksum tells the outputs of two payloads apart that differ in one byte. -/
theorem rcDetectsOneByte.transformSeq_ne {rc : Rc} (h : rcDetectsOneByte rc) {b b' : Byte} (hne : b ≠ b')
    (key front back : List Byte) (c : Nat) :
    rcDigestOf rc (transformSeq key (front ++ b :: back) c) ≠ rcDigestOf rc (transformSeq key (front ++ b' :: back) c) := by
  simp only [transformSeq_append, transformSeq_cons]
  exact h _ _ _ _ (rev8_xor_ne _ hne)

/-- R95: the payload of a container that decodes well fits and has the digest the header names. -/
theorem sourceDecode_ok {key : List Byte} {cap : Nat} {rc : Rc} {h0 h1 h2 h3 : Byte} {p o : List Byte}
    (h : sourceDecode key cap rc (h0 :: h1 :: h2 :: h3 :: p) = .ok o) :
    p.length ≤ cap ∧
      rcDigestOf rc (transformSeq key p ((headerValue h0 h1 h2 h3).toNat % key.length)) = headerValue h0 h1 h2 h3 := by
  simp only [sourceDecode] at h
  split at h
  next => cases h
  next hfit =>
    split at h
    next hd => exact ⟨Nat.le_of_not_lt hfit, hd⟩
    next => cases h

/-- R95: a payload that fits and has another digest is a mismatch. -/
theorem sourceDecode_mismatch {key : List Byte} {cap : Nat} {rc : Rc} {h0 h1 h2 h3 : Byte} {p : List Byte}
    (hfit : p.length ≤ cap)
    (hd : rcDigestOf rc (transformSeq key p ((headerValue h0 h1 h2 h3).toNat % key.length)) ≠ headerValue h0 h1 h2 h3) :
    ∃ a, sourceDecode key cap rc (h0 :: h1 :: h2 :: h3 :: p) = .mismatch (headerValue h0 h1 h2 h3) a := by
  simp only [sourceDecode, if_neg (Nat.not_lt.mpr hfit), if_neg hd]
  exact ⟨_, rfl⟩

/-- R84 of the source's `decode`. -/
theorem sourceDecode_tampered {key : List Byte} {cap : Nat} {rc : Rc} {h0 h1 h2 h3 b b' : Byte} {front back o : List Byte}
    (hrc : rcDetectsOneByte rc) (hne : b ≠ b')
    (hok : sourceDecode key cap rc (h0 :: h1 :: h2 :: h3 :: (front ++ b :: back)) = .ok o) :
    ∃ a, sourceDecode key cap rc (h0 :: h1 :: h2 :: h3 :: (front ++ b' :: back)) = .mismatch (headerValue h0 h1 h2 h3) a := by
  obtain ⟨hfit, hd⟩ := sourceDecode_ok hok
  refine sourceDecode_mismatch (by simpa using hfit) (ne_of_ne_of_eq ?_ hd)
  exact hrc.transformSeq_ne hne.symm key front back _

/-- R95: where the run of a container ends, the outcome is that of the source's `decode`. -/
theorem State.ParamsOk.container_outcome {s t : State} (h : s.ParamsOk) {c : List Byte}
    (hrun : runCommands (asmContainer c) s = .next t) :
    t.jobOutcome = some (sourceDecode s.keyRom.bytes s.outCap.toNat s.prim c) := by
  obtain ⟨u, hu, hout⟩ := h.runCommands_container c
  obtain rfl : u = t := by injection hu.symm.trans hrun
  exact hout

/-- Settles O52: the two runs end as the source's `decode` of the two containers, and an error leaves no output. -/
theorem tamperingIsCaughtIfTheChecksumCatchesIt : Obligations.TamperingIsCaughtIfTheChecksumCatchesIt := by
  intro s t h0 h1 h2 h3 b b' front back h hrc hne hrun hp
  have hok := (h.container_outcome hrun).symm.trans (State.jobOutcome_eq_ok_iff.mpr ⟨hp, rfl⟩)
  obtain ⟨a, hmis⟩ := sourceDecode_tampered hrc hne (Option.some.inj hok)
  obtain ⟨u, hu, hout⟩ := h.runCommands_container (h0 :: h1 :: h2 :: h3 :: (front ++ b' :: back))
  rw [hmis] at hout
  obtain ⟨hup, huerr, -, -⟩ := State.jobOutcome_eq_mismatch_iff.mp hout
  exact ⟨u, hu, hup, huerr, (h.container_inv hu).outBuf_eq_nil (by simp [hup]) (by simp [hup])⟩

end Sys2Proof.Machine
end

section
/-! PROOFS. Runs of commands as sequences (spec/43_stream_decoder.md sections 2 and 3): NOPs (O53), division in two (O54), and the
history before START (O55). -/

namespace Sys2Proof.Machine

/-- Settles O53: NOP answers the state it met, so the run goes on as if it were not there. -/
theorem nopsMayStandAnywhere : Obligations.NopsMayStandAnywhere :=
  fun s is => (runCommands_filter_nop is s).symm

/-- Settles O54: no command reads the presentations still to come. -/
theorem chunkingDoesNotMatter : Obligations.ChunkingDoesNotMatter :=
  fun _ _ _ back h => runCommands_append h back

/-- R89, R123: what START leaves is a function of what the core is built with, but for the inputs to come. -/
theorem State.openJob_withHost_congr {s₁ s₂ : State} (hrom : s₁.keyRom = s₂.keyRom) (hcap : s₁.outCap = s₂.outCap)
    (hrc : s₁.rc = s₂.rc) (l : List PortInput) : s₁.openJob.withHost l = s₂.openJob.withHost l := by
  simp only [State.openJob, State.fresh, State.withHost, State.prim, hrom, hcap, hrc]

/-- Settles O55: after START two cores built alike hold the same state. -/
theorem startForgetsTheHistory : Obligations.StartForgetsTheHistory := by
  intro s₁ s₂ is hrom hcap hrc
  rw [runCommands_start, runCommands_start, runCommands, runCommands, State.openJob_withHost_congr hrom hcap hrc]

end Sys2Proof.Machine
end

section
/-! PROOFS. The commands whose effect is fixed by PHASE alone: NOP (O13), START (O14), ABORT (O22) and the reserved opcodes (O23), and
the step that runs a presented command (O7). With them the way out of DONE_ERR (O26, O27) and of IDLE (O15). -/

namespace Sys2Proof.Machine

/-! ## One presentation on the input ports (R97) -/

/-- R86: with a command word presented next, the step is that command on the state behind it. -/
theorem step_command {s : State} {w : CmdWord} {rest : List PortInput} (h : s.host = PortInput.ofCommand w :: rest) :
    step s = exec (decode w) (s.withHost rest) :=
  step_presented h

/-- R120: a reset presented without a command. -/
theorem step_reset (s : State) (w : CmdWord) (rest : List PortInput) :
    step (s.withHost ({ rst := true, cmdValid := false, cmdWord := w } :: rest)) = .next (s.withHost rest).applyReset :=
  step_presented (State.withHost_host s _)

/-- R97, R121: what is presented as a reset has `rst`. -/
theorem PortInput.rst_of_event_reset {p : PortInput} (h : p.event = .reset) : p.rst = true := by
  unfold PortInput.event at h
  split at h
  case h_1 hrst => exact hrst
  all_goals cases h

/-- R97, R121: what is presented as a command has `cmd_valid`, its word, and no `rst`. -/
theorem PortInput.fields_of_event_command {p : PortInput} {w : CmdWord} (h : p.event = .command w) :
    p.rst = false ∧ p.cmdValid = true ∧ p.cmdWord = w := by
  unfold PortInput.event at h
  split at h
  case h_2 hrst hvalid =>
    injection h with h
    exact ⟨hrst, hvalid, h⟩
  all_goals cases h

/-- Settles O7: the port's command is decoded and executed. -/
theorem stepRunsThePresentedCommand : Obligations.StepRunsThePresentedCommand := by
  intro s i w rest hs hw _
  rw [← hw]
  exact step_command hs

/-! ## Commands by phase -/

/-- R92: where there is a job or a released output, ABORT is an I/O failure. -/
theorem exec_abort_job {s : State} (hp : s.phase = .header ∨ s.phase = .body ∨ s.phase = .doneOk) :
    exec .abort s = .next (s.raise .ioFailure) := by
  rw [exec_abort]
  rcases hp with hp | hp | hp <;> simp only [hp]

/-- R87, R110: in IDLE every command but NOP and START is out of phase. -/
theorem exec_idle {i : Instr} {s : State} (hp : s.phase = .idle) (hnop : i ≠ .nop) (hstart : i ≠ .start) :
    exec i s = .next (s.raise .protocolError) := by
  cases i with
  | nop => exact absurd rfl hnop
  | start => exact absurd rfl hstart
  | push b => rw [exec_push_outside b (by simp [hp]) (by simp [hp]), if_neg (by simp [hp])]
  | endCmd => simp only [exec_end, hp]
  | abort => simp only [exec_abort, hp]
  | reserved op => rw [exec_reserved, if_neg (by simp [hp])]

/-- Settles O13: OP 0x00 is NOP's row, and NOP answers the state it met. -/
theorem nopChangesNothing : Obligations.NopChangesNothing :=
  ⟨fun data => StandsFor.decode_eq (.nop (opField_cmdWord 0x00 data)), exec_nop⟩

/-- Settles O22: the error entry is R113's, so ERR, PHASE and the output are all it writes. -/
theorem abortEndsTheJob : Obligations.AbortEndsTheJob :=
  ⟨fun data => StandsFor.decode_eq (.abort (opField_cmdWord 0x04 data)), fun _ =>
    ⟨exec_abort_job, fun hp => exec_idle hp (by decide) (by decide), fun hp => exec_error_kept hp (by decide)⟩⟩

/-- Settles O23: which of the 251 opcodes it is makes no difference. -/
theorem reservedOpcodeEndsTheJob : Obligations.ReservedOpcodeEndsTheJob := by
  refine ⟨fun op data hop => StandsFor.decode_eq (.reserved op (opField_cmdWord op data) hop), fun s op =>
    ⟨fun hp => ?_, fun hp => ?_⟩⟩
  · rw [exec_reserved, if_neg hp]
    rfl
  · rw [exec_reserved, if_pos hp]

/-! ## The way out of DONE_ERR (R114, R115) -/

/-- Settles O26: this is R114 of every command. -/
theorem firstErrorIsKept : Obligations.FirstErrorIsKept :=
  fun _ _ hp hi => exec_error_kept hp hi

/-- R115: the command that leaves DONE_ERR is START. -/
theorem eq_start_of_exec_leaves_error {i : Instr} {s t : State} (hp : s.phase = .doneErr) (hx : exec i s = .next t)
    (ht : t.phase ≠ .doneErr) : i = .start := by
  by_contra hi
  injection (exec_error_kept hp hi).symm.trans hx with hst
  exact ht (hst ▸ hp)

/-- R58: a word that stands for START has its OP. -/
theorem opField_of_decode_start {w : CmdWord} (h : decode w = .start) : opField w = 0x01 := by
  have hw : StandsFor w .start := h ▸ standsFor_decode w
  cases hw with
  | start hop => exact hop

/-- Settles O14: OP 0x01 is START's row, and the other commands keep the error. -/
theorem startOpensAFreshJob : Obligations.StartOpensAFreshJob :=
  ⟨fun data => StandsFor.decode_eq (.start (opField_cmdWord 0x01 data)), exec_start,
    fun _ _ _ => eq_start_of_exec_leaves_error⟩

/-- Settles O27: of what a step can do, silence keeps the error, and so does every command but START. -/
theorem onlyStartOrResetLeavesAnError : Obligations.OnlyStartOrResetLeavesAnError := by
  intro s t hp hs ht
  rcases step_next hs with ⟨-, rfl⟩ | ⟨p, rest, hhost, ⟨-, rfl⟩ | ⟨he, rfl⟩ | ⟨w, he, hx⟩⟩
  · exact absurd hp ht
  · exact absurd hp ht
  · exact ⟨p, rest, hhost, .inl ⟨PortInput.rst_of_event_reset he, rfl⟩⟩
  · obtain ⟨hrst, hvalid, rfl⟩ := PortInput.fields_of_event_command he
    have hstart := eq_start_of_exec_leaves_error (s := s.withHost rest) hp hx ht
    rw [hstart, exec_start] at hx
    injection hx with hx
    exact ⟨p, rest, hhost, .inr ⟨hrst, hvalid, opField_of_decode_start hstart, hx ▸ rfl⟩⟩

/-! ## The way out of IDLE (R122) -/

/-- Settles O15: reset and START are the two columns of the reset table, and IDLE is left for HEADER by START alone. -/
theorem resetAndStartDifferOnlyInPhase : Obligations.ResetAndStartDifferOnlyInPhase := by
  refine ⟨fun s w => ⟨s.applyReset, step_reset s w s.host, rfl, rfl⟩, fun s t i hp hx ht => ?_, fun s i hp hi => ?_⟩
  · obtain ⟨-, hheader, -⟩ := whoEntersEachPhase s t i hx
    rcases hheader ht with rfl | hi | ⟨hs, -⟩
    · simp [hp] at ht
    · exact hi
    · simp [hp] at hs
  · rcases hi with rfl | rfl | ⟨b, rfl⟩ <;> exact exec_idle hp (by simp) (by simp)

end Sys2Proof.Machine
end

section
/-! PROOFS. What the commands that store no byte leave alone (O31), and that no command stops in a state of the invariant (O36). -/

namespace Sys2Proof.Machine

/-- Settles O31: their effects are to hold the state, to pass the verify gate and to enter an error. -/
theorem nonStoringFrame : Obligations.NonStoringFrame := by
  intro s t i hi h
  cases exec_transition h with
  | nop => simp
  | errorKept => simp
  | start => simp at hi
  | headerByte b hp hc => simp at hi
  | lastHeaderByte b c hp hc hs => simp at hi
  | payloadByte b k hp hr hk => simp at hi
  | gateMatch hp hd => simp [hp]
  | gateMismatch hp hd => simp [hp]
  | error _ e hc => simp [hc.phase_ne]

/-- R39, R90: under the invariant a header byte is taken, since HDR_CNT is below 4 and the key table's length in bounds. -/
theorem State.Inv.exists_exec_push_header {s : State} (h : s.Inv) (b : Byte) (hp : s.phase = .header) :
    ∃ t, exec (.push b) s = .next t := by
  rcases Nat.lt_succ_iff_lt_or_eq.mp (h.hdrHeader hp) with hc | hc
  · exact ⟨_, exec_push_early b hp hc⟩
  · obtain ⟨c, hstart, -⟩ := startCursor_exists (s.recordHeaderByte b).expected h.params.lenPos h.params.lenMax
    exact ⟨_, exec_push_fourth b hp hc hstart⟩

/-- R39, R90: under the invariant a payload byte is transformed, or ends the job where the output is full. -/
theorem State.Inv.exists_exec_push_body {s : State} (h : s.Inv) (b : Byte) (hp : s.phase = .body) :
    ∃ t, exec (.push b) s = .next t := by
  rcases Nat.lt_or_eq_of_le h.outLenLe with hr | hf
  · exact ⟨_, h.exec_push_room b hp hr⟩
  · exact ⟨_, (exec_push_body b hp).trans (pushBody_full b (BitVec.eq_of_toNat_eq hf))⟩

/-- R86: under the invariant every command answers a next state. -/
theorem State.Inv.exists_exec {s : State} (h : s.Inv) (i : Instr) : ∃ t, exec i s = .next t := by
  cases i with
  | nop => exact ⟨_, exec_nop s⟩
  | start => exact ⟨_, exec_start s⟩
  | push b =>
    by_cases hh : s.phase = .header
    · exact h.exists_exec_push_header b hh
    by_cases hb : s.phase = .body
    · exact h.exists_exec_push_body b hb
    · exact ⟨_, exec_push_outside b hh hb⟩
  | endCmd => exact ⟨_, exec_end s⟩
  | abort => exact ⟨_, exec_abort s⟩
  | reserved op => exact ⟨_, exec_reserved op s⟩

/-- Settles O36: a presentation is silence, a reset or a command, and none of them stops. -/
theorem invariantStatesNeverStop : Obligations.InvariantStatesNeverStop := by
  refine fun s h => ⟨h.exists_exec, ?_⟩
  cases hs : s.host with
  | nil => exact ⟨_, step_silent hs⟩
  | cons p rest =>
    rw [step_presented hs]
    cases p.event with
    | hold => exact ⟨_, rfl⟩
    | reset => exact ⟨_, rfl⟩
    | command w => exact (h.withHost rest).exists_exec (decode w)

end Sys2Proof.Machine
end

section
/-! PROOFS. The released output (O42, R126): it can be read in DONE_OK alone, and every command but NOP leaves that phase. -/

namespace Sys2Proof.Machine

/-- R99: outside DONE_OK the output read port gives no output. -/
theorem State.outRead_of_phase_ne {s : State} (h : s.phase ≠ .doneOk) (addr : Word) :
    s.outRead addr = { ok := false, data := 0x00 } := by
  simp [State.outRead, State.outByte, h]

/-- R126: every command but NOP ends the reading of a released output. -/
theorem exec_leaves_doneOk {i : Instr} {s : State} (hp : s.phase = .doneOk) (hi : i ≠ .nop) :
    ∃ t, exec i s = .next t ∧ t.phase ≠ .doneOk := by
  cases i with
  | nop => exact absurd rfl hi
  | start => exact ⟨_, exec_start s, by simp⟩
  | push b => exact ⟨_, exec_push_outside b (by simp [hp]) (by simp [hp]), by simp [hp]⟩
  | endCmd => exact ⟨_, exec_end s, by simp [hp]⟩
  | abort => exact ⟨_, exec_abort s, by simp [hp]⟩
  | reserved op => exact ⟨_, exec_reserved op s, by simp [hp]⟩

/-- R126: a command that stays in DONE_OK keeps the whole state. -/
theorem eq_of_exec_stays_doneOk {i : Instr} {s t : State} (hp : s.phase = .doneOk) (hx : exec i s = .next t)
    (ht : t.phase = .doneOk) : t = s := by
  by_cases hi : i = .nop
  · rw [hi, exec_nop] at hx
    injection hx with hx
    exact hx.symm
  · obtain ⟨u, hu, hne⟩ := exec_leaves_doneOk hp hi
    injection hu.symm.trans hx with hut
    exact absurd ht (hut ▸ hne)

/-- Settles O42: a step that stays in DONE_OK changes the inputs to come at most, and outside DONE_OK nothing is read. -/
theorem releasedOutputIsStable : Obligations.ReleasedOutputIsStable := by
  refine ⟨fun s t hp hs ht addr => ?_, fun s hp => ⟨s, exec_nop s, hp⟩, fun s i hp hi => ?_, fun s w rest _ => ?_⟩
  · rcases step_next hs with ⟨-, rfl⟩ | ⟨p, rest, -, ⟨-, rfl⟩ | ⟨-, rfl⟩ | ⟨w, -, hx⟩⟩
    · rfl
    · rfl
    · simp at ht
    · rw [eq_of_exec_stays_doneOk (s := s.withHost rest) hp hx ht]
      rfl
  · obtain ⟨t, hx, ht⟩ := exec_leaves_doneOk hp hi
    exact ⟨t, hx, State.outRead_of_phase_ne ht⟩
  · exact ⟨_, step_reset s w rest, State.outRead_of_phase_ne (by simp)⟩

end Sys2Proof.Machine
end

section
/-! PROOFS. The verify gate's output side: under the invariant the output read port gives the bytes of the output in DONE_OK (O40, R99),
and before the gate has matched no port shows one (O41, R100). -/

namespace Sys2Proof.Machine

/-- R99: an address with a byte of output shows it. -/
theorem State.outRead_of_byte {s : State} {addr : Word} {b : Byte} (h : s.outByte addr = some b) :
    s.outRead addr = { ok := true, data := b } := by
  rw [State.outRead, h]

/-- R99: an address that the gate keeps back gives no output. -/
theorem State.outRead_of_gated {s : State} {addr : Word} (h : ¬(s.phase = .doneOk ∧ addr < s.outLen)) :
    s.outRead addr = { ok := false, data := 0x00 } := by
  rw [State.outRead, State.outByte, if_neg h]

/-- R39, R42: every address below OUT_LEN holds its byte of the output. -/
theorem State.Inv.exists_outBuf_byte {s : State} (h : s.Inv) {addr : Word} (hlt : addr < s.outLen) :
    ∃ b, s.outBuf.read addr.toNat = some b ∧ s.outBuf.bytes[addr.toNat]? = some b := by
  have hlen : addr.toNat < s.outBuf.bytes.length := h.outLenEq ▸ BitVec.lt_def.mp hlt
  have hbyte := List.getElem?_eq_getElem hlen
  exact ⟨_, (h.outDense.read addr.toNat).trans hbyte, hbyte⟩

/-- Settles O40: the port reads the buffer behind the gate, and the invariant puts a byte at every address below OUT_LEN. -/
theorem outputPortIsGated : Obligations.OutputPortIsGated := by
  refine fun s addr hinv => ⟨fun hopen => ?_, State.outRead_of_gated⟩
  obtain ⟨b, hread, hbyte⟩ := hinv.exists_outBuf_byte hopen.2
  have hout : s.outByte addr = some b := (if_pos hopen).trans hread
  rw [State.outRead_of_byte hout]
  exact ⟨rfl, hbyte⟩

/-- R21, R100: no register is a view of the bytes of OUTBUF. -/
theorem State.regRead_ignores_outBuf (s : State) (other : Memory) (addr : BitVec 4) :
    ({ s with outBuf := other } : State).regRead addr = s.regRead addr := rfl

/-- R113: a job that ends in an error leaves no output behind. -/
theorem Transition.outBuf_eq_nil_of_error {s t : State} {i : Instr} (h : Transition s i t) (hs : s.phase ≠ .doneErr)
    (ht : t.phase = .doneErr) : t.outBuf = [] := by
  rcases h.error_entry hs ht with ⟨e, -, rfl⟩ | rfl
  · exact State.raise_outBuf s e
  · exact State.raise_outBuf s.captureDigest .checksumMismatch

/-- Settles O41: the gate keeps the output port shut whatever the buffer holds, no register reads the buffer, the probe reads the key
ROM alone, and an error entry clears the buffer. -/
theorem nothingIsReleasedBeforeTheGate : Obligations.NothingIsReleasedBeforeTheGate := by
  refine ⟨fun s other hp => ⟨State.outRead_of_phase_ne hp, fun addr => ?_, s.regRead_ignores_outBuf other,
      fun b c => State.probe_congr rfl b c⟩,
    fun s t i hx => (exec_transition hx).outBuf_eq_nil_of_error,
    fun s _ => ⟨s.regRead_digest, s.regRead_cursor, s.regRead_outLen⟩⟩
  have hshut : ({ s with outBuf := other } : State).phase ≠ .doneOk := hp
  rw [State.outRead_of_phase_ne hshut, State.outRead_of_phase_ne hp]

end Sys2Proof.Machine
end

section
/-! PROOFS. Errors and instances (spec/60_exceptions.md): a cause that R106 names raises its error (O19, O20), and those that raise
PROTOCOL_ERROR are R110's list (O24). Silence (O12, R119), and the key ROM the instances share (O58, R118). -/

namespace Sys2Proof.Machine

/-! ## Causes of an error (R106) -/

/-- R113: every cause raises its error from the state the command met. -/
theorem ErrorCause.exec_eq {s : State} {i : Instr} {e : ErrKind} (h : ErrorCause s i e) : exec i s = .next (s.raise e) := by
  cases h with
  | truncated hp => simp only [exec_end, hp]
  | hostFailed hp he => exact exec_abort_job (by cases hs : s.phase <;> simp_all)
  | full b hp hf => rw [exec_push_body b hp, pushBody_full b hf]
  | strayPush b hp => rcases hp with hp | hp <;> simp [exec_push_outside b, hp]
  | strayEnd hp => rcases hp with hp | hp <;> simp only [exec_end, hp]
  | strayAbort hp => exact exec_idle hp (by decide) (by decide)
  | reserved op he => rw [exec_reserved, if_neg he]

/-- Settles O19: R111 is a cause of R106's list. -/
theorem fullBufferEndsTheJob : Obligations.FullBufferEndsTheJob :=
  fun _ b hp hf => (ErrorCause.full b hp hf).exec_eq

/-- Settles O20: R107 is a cause of R106's list. -/
theorem endInHeaderIsTruncated : Obligations.EndInHeaderIsTruncated :=
  fun _ hp => (ErrorCause.truncated hp).exec_eq

/-! ## PROTOCOL_ERROR (R110) -/

/-- R110: outside DONE_ERR the causes of PROTOCOL_ERROR are those of its list. -/
theorem errorCause_protocolError_iff {s : State} {i : Instr} (hs : s.phase ≠ .doneErr) :
    ErrorCause s i .protocolError ↔
      (((∃ b, i = .push b) ∨ i = .endCmd) ∧ (s.phase = .idle ∨ s.phase = .doneOk)) ∨
      (i = .abort ∧ s.phase = .idle) ∨ (∃ op, i = .reserved op) := by
  constructor
  · intro h
    cases h with
    | strayPush b hp => exact .inl ⟨.inl ⟨b, rfl⟩, hp⟩
    | strayEnd hp => exact .inl ⟨.inr rfl, hp⟩
    | strayAbort hp => exact .inr (.inl ⟨rfl, hp⟩)
    | reserved op => exact .inr (.inr ⟨op, rfl⟩)
  · rintro (⟨⟨b, rfl⟩ | rfl, hp⟩ | ⟨rfl, hp⟩ | ⟨op, rfl⟩)
    · exact .strayPush b hp
    · exact .strayEnd hp
    · exact .strayAbort hp
    · exact .reserved op hs

/-- R110: a command that makes ERR PROTOCOL_ERROR has a cause for it; its other effects keep ERR, clear it or write another kind. -/
theorem Transition.protocolError_cause {s t : State} {i : Instr} (h : Transition s i t) (hs : s.err ≠ .protocolError)
    (ht : t.err = .protocolError) : ErrorCause s i .protocolError := by
  cases h with
  | nop | errorKept => exact absurd ht hs
  | start => simp at ht
  | headerByte | lastHeaderByte | payloadByte | gateMatch => exact absurd ht hs
  | gateMismatch => simp at ht
  | error _ e hc => exact ht ▸ hc

/-- Settles O24: the effects that write PROTOCOL_ERROR are the error entries with a cause in R110's list, and DONE_ERR gives none. -/
theorem protocolErrorExactlyOutOfPhase : Obligations.ProtocolErrorExactlyOutOfPhase := by
  refine ⟨fun s i hp hs => ?_, fun s t i hp hs hx ht => ?_⟩
  · rw [← errorCause_protocolError_iff hp]
    exact ⟨fun ⟨_, hx, ht⟩ => (exec_transition hx).protocolError_cause hs ht, fun hc => ⟨_, hc.exec_eq, rfl⟩⟩
  · exact ((exec_transition hx).protocolError_cause hs ht).phase_ne hp

/-! ## Silence (R119) -/

/-- Settles O12: with nothing presented, and with neither `rst` nor `cmd_valid`, the event is to hold. -/
theorem silenceHoldsTheState : Obligations.SilenceHoldsTheState :=
  ⟨fun _ => step_silent, fun _ _ _ => step_presented⟩

/-! ## One key ROM (R118) -/

/-- Settles O58: every instance starts in the one reset state, and the step writes one core, which keeps its key ROM. -/
theorem instancesShareOneKeyRom : Obligations.InstancesShareOneKeyRom := by
  refine ⟨⟨List.length_replicate, fun c hc => ?_, fun c hc => ?_⟩, fun y z rom k hy h d hd => ?_⟩
  · rw [List.eq_of_mem_replicate hc]
  · rw [List.eq_of_mem_replicate hc]
    rfl
  · obtain ⟨c, c', hc, hs, rfl⟩ := System.stepAt_eq_next_iff.mp h
    rcases List.mem_or_eq_of_mem_set hd with hd | rfl
    · exact hy d hd
    · exact (noStepWritesTheKeyRom c _ hs).1.trans (hy c (List.mem_of_getElem? hc))

end Sys2Proof.Machine
end

section
/-! PROOFS. Reset (spec/70_reset_and_hazards.md): a presentation with `rst` is the reset event, whatever stands beside it, and the reset
writes the IDLE column of R38's table (O9). -/

namespace Sys2Proof.Machine

/-! ## Reset (R120) -/

/-- R120, R121: `rst` alone selects the event. -/
theorem PortInput.event_of_rst {p : PortInput} (h : p.rst = true) : p.event = .reset := by
  simp only [PortInput.event, h]

/-- R120: a presentation with `rst` resets the state behind it. -/
theorem step_of_rst {s : State} {p : PortInput} {rest : List PortInput} (hs : s.host = p :: rest) (hp : p.rst = true) :
    step s = .next (s.withHost rest).applyReset := by
  rw [step_presented hs, PortInput.event_of_rst hp]

/-- Settles O9: `applyReset` writes the fields of R38's table, and keeps the key ROM, the parameters and the presentations still to
come. -/
theorem resetSetsEveryRegister : Obligations.ResetSetsEveryRegister :=
  fun _ _ _ hs => step_of_rst hs rfl

end Sys2Proof.Machine
end

section
/-! PROOFS. A command presented together with `rst` (O10, R114 and R121 as log entry 6 reads them): the step is the reset of the state
behind the presentation, so nothing of the presentation but its `rst` counts. -/

namespace Sys2Proof.Machine

/-! ## `rst` beside `cmd_valid` (R121) -/

/-- R120, R121: the step of a presentation with `rst` names neither `cmd_valid` nor the command word. -/
theorem step_withHost_of_rst (s : State) {p : PortInput} (rest : List PortInput) (hp : p.rst = true) :
    step (s.withHost (p :: rest)) = .next (s.withHost rest).applyReset := by
  rw [step_of_rst (State.withHost_host s _) hp, State.withHost_withHost]

/-- Settles O10: with the command and without it, the step is the same reset. -/
theorem resetWinsOverACommand : Obligations.ResetWinsOverACommand := fun s w rest =>
  calc step (s.withHost ({ rst := true, cmdValid := true, cmdWord := w } :: rest))
    _ = .next (s.withHost rest).applyReset := step_withHost_of_rst s rest rfl
    _ = step (s.withHost ({ rst := true, cmdValid := false, cmdWord := 0x0000 } :: rest)) := (step_reset s 0x0000 rest).symm

end Sys2Proof.Machine
end
